-- ==== Sys2Proof/Word.lean ====
section
/-! DEFINITION. The word types of ZKA-CORE (00_scope.md R9, R13; 20_memory.md R40, R42). -/

namespace Sys2Proof

/-- One limb, slot, index word, parameter word or word of MEM: 64 bits (00_scope.md R9, 20_memory.md R40). -/
abbrev Word := BitVec 64

/-- One byte of a word, as a byte-addressed bus binding would show it (20_memory.md R42). -/
abbrev Byte := BitVec 8

/-- A limb sequence, least significant limb first (00_scope.md R14). -/
abbrev Limbs := List Word

/-- The bits of a header field of 8 bits, OP, L or W (30_encoding.md R61). -/
abbrev Field8 := BitVec 8

end Sys2Proof
end

