-- ==== Sys2Proof/Syntax.lean ====
section
/-! DEFINITION. Command packets and the seven commands (30_encoding.md R60 to R70).

A term of `Instr` keeps every bit of its packet but the opcode, the must-be-zero bits included: a packet that
fails a validity check is "still that command, rejected, never another command" (30_encoding.md R62; log 16,
DEDUCED, safe). -/

namespace Sys2Proof

/-- A command packet: ten 64-bit words handed over by value (30_encoding.md R60). `w0` is the header, `w1` to
`w9` are the parameter words PKT[1] to PKT[9]. -/
structure Packet where
  w0 : Word
  w1 : Word
  w2 : Word
  w3 : Word
  w4 : Word
  w5 : Word
  w6 : Word
  w7 : Word
  w8 : Word
  w9 : Word
deriving DecidableEq, Repr

/-- The header fields other than the opcode (30_encoding.md R61). -/
structure Header where
  /-- `PKT[0][15:8]`, the limb count L. -/
  limbs : Field8
  /-- `PKT[0][23:16]`, the window size W. -/
  window : Field8
  /-- `PKT[0][63:24]`, reserved, must be zero. -/
  rsv0 : BitVec 40
deriving DecidableEq, Repr

/-- Format LB, LADD and LSUB (30_encoding.md R63). -/
structure FormatLB where
  hdr : Header
  dst : Word
  a : Word
  b : Word
  mbz4 : Word
  mbz5 : Word
  mbz6 : Word
  mbz7 : Word
  mbz8 : Word
  mbz9 : Word
deriving DecidableEq, Repr

/-- Format LC, LCMP (30_encoding.md R64). -/
structure FormatLC where
  hdr : Header
  mbz1 : Word
  a : Word
  b : Word
  mbz4 : Word
  mbz5 : Word
  mbz6 : Word
  mbz7 : Word
  mbz8 : Word
  mbz9 : Word
deriving DecidableEq, Repr

/-- Format MM, MONTMUL (30_encoding.md R65). -/
structure FormatMM where
  hdr : Header
  dst : Word
  a : Word
  b : Word
  modulus : Word
  mu : Word
  mbz6 : Word
  mbz7 : Word
  mbz8 : Word
  mbz9 : Word
deriving DecidableEq, Repr

/-- Format BM, BMONTMUL (30_encoding.md R66). -/
structure FormatBM where
  hdr : Header
  dst : Word
  a : Word
  b : Word
  modulus : Word
  mu : Word
  count : Word
  mbz7 : Word
  mbz8 : Word
  mbz9 : Word
deriving DecidableEq, Repr

/-- Format NB, NTTBFLY (30_encoding.md R67). `twIm` is the ignored word of R73. -/
structure FormatNB where
  hdr : Header
  outEven : Word
  outOdd : Word
  inEven : Word
  inOdd : Word
  tw : Word
  twIm : Word
  n : Word
  modulus : Word
  mu : Word
deriving DecidableEq, Repr

/-- Format BA, BKTACC (30_encoding.md R68). -/
structure FormatBA where
  hdr : Header
  acc : Word
  idx : Word
  pts : Word
  numPoints : Word
  numBuckets : Word
  coordSize : Word
  mbz7 : Word
  mbz8 : Word
  mbz9 : Word
deriving DecidableEq, Repr

/-- The seven commands, one constructor per row of the opcode table (30_encoding.md R70). -/
inductive Instr where
  /-- LADD, limb add (40_limb_arithmetic.md R95). -/
  | ladd (f : FormatLB)
  /-- LSUB, limb subtract (R96). -/
  | lsub (f : FormatLB)
  /-- LCMP, limb compare (R97). -/
  | lcmp (f : FormatLC)
  /-- MONTMUL, Montgomery multiply (41_montgomery.md R116). -/
  | montmul (f : FormatMM)
  /-- BMONTMUL, batch Montgomery multiply (42_batch_montmul.md R131). -/
  | bmontmul (f : FormatBM)
  /-- NTTBFLY, butterfly step (43_ntt_butterfly.md R145). -/
  | nttbfly (f : FormatNB)
  /-- BKTACC, bucket accumulate (44_msm_bucket.md R162). -/
  | bktacc (f : FormatBA)
deriving DecidableEq, Repr

/-- The header of a command. -/
def Instr.hdr (i : Instr) : Header :=
  match i with
  | .ladd f => f.hdr
  | .lsub f => f.hdr
  | .lcmp f => f.hdr
  | .montmul f => f.hdr
  | .bmontmul f => f.hdr
  | .nttbfly f => f.hdr
  | .bktacc f => f.hdr

end Sys2Proof
end

