-- ==== Sys2Proof/WellFormed.lean ====
section
/-! DEFINITION. Well-formed commands: the conditions on the packet alone, its must-be-zero bits, its limb count
and its window (60_exceptions.md R184, R185). The conditions that need MEM_WORDS (R186, R187) are in
Machine/Checks.lean. The machine runs ill-formed commands too: it rejects them (R62). -/

namespace Sys2Proof

/-- W = 0 and RSV0 = 0, the header's must-be-zero bits outside BKTACC (30_encoding.md R63 to R67). -/
abbrev Header.zeroWindow (h : Header) : Prop := h.window = 0 ∧ h.rsv0 = 0

/-- L = 0 and RSV0 = 0, the header's must-be-zero bits of BKTACC (30_encoding.md R68). -/
abbrev Header.zeroLimbs (h : Header) : Prop := h.limbs = 0 ∧ h.rsv0 = 0

/-- L is 4 or 6 (00_scope.md R10). -/
abbrev Header.supportedLimbs (h : Header) : Prop := h.limbs = 4 ∨ h.limbs = 6

/-- W is at most 64 (60_exceptions.md R185). -/
abbrev Header.legalWindow (h : Header) : Prop := h.window ≤ 64

/-- Every must-be-zero field and word of the command's format is zero (60_exceptions.md R184). -/
abbrev Instr.ReservedZero (i : Instr) : Prop :=
  match i with
  | .ladd f => f.hdr.zeroWindow ∧ f.mbz4 = 0 ∧ f.mbz5 = 0 ∧ f.mbz6 = 0 ∧ f.mbz7 = 0 ∧ f.mbz8 = 0 ∧ f.mbz9 = 0
  | .lsub f => f.hdr.zeroWindow ∧ f.mbz4 = 0 ∧ f.mbz5 = 0 ∧ f.mbz6 = 0 ∧ f.mbz7 = 0 ∧ f.mbz8 = 0 ∧ f.mbz9 = 0
  | .lcmp f => f.hdr.zeroWindow ∧ f.mbz1 = 0 ∧ f.mbz4 = 0 ∧ f.mbz5 = 0 ∧ f.mbz6 = 0 ∧ f.mbz7 = 0 ∧ f.mbz8 = 0
      ∧ f.mbz9 = 0
  | .montmul f => f.hdr.zeroWindow ∧ f.mbz6 = 0 ∧ f.mbz7 = 0 ∧ f.mbz8 = 0 ∧ f.mbz9 = 0
  | .bmontmul f => f.hdr.zeroWindow ∧ f.mbz7 = 0 ∧ f.mbz8 = 0 ∧ f.mbz9 = 0
  | .nttbfly f => f.hdr.zeroWindow
  | .bktacc f => f.hdr.zeroLimbs ∧ f.mbz7 = 0 ∧ f.mbz8 = 0 ∧ f.mbz9 = 0

/-- The limb count or window the command accepts: any L for BMONTMUL (60_exceptions.md R185, R189). -/
abbrev Instr.ShapeLegal (i : Instr) : Prop :=
  match i with
  | .ladd f => f.hdr.supportedLimbs
  | .lsub f => f.hdr.supportedLimbs
  | .lcmp f => f.hdr.supportedLimbs
  | .montmul f => f.hdr.supportedLimbs
  | .bmontmul _ => True
  | .nttbfly f => f.hdr.supportedLimbs
  | .bktacc f => f.hdr.legalWindow

/-- A command whose packet passes every check that does not need MEM_WORDS. -/
abbrev Instr.WellFormed (i : Instr) : Prop := i.ReservedZero ∧ i.ShapeLegal

end Sys2Proof
end

