-- ==== Sys2Proof/Decode.lean ====
section
/-! DEFINITION. Decoding a packet to a command, and encoding a command as a packet (30_encoding.md R60 to R71). -/

namespace Sys2Proof

/-- The seven mnemonics (00_scope.md R19). -/
inductive Mnemonic where
  | ladd | lsub | lcmp | montmul | bmontmul | nttbfly | bktacc
deriving DecidableEq, Repr

/-- The opcode map (30_encoding.md R70). -/
def opcodeOf (m : Mnemonic) : Field8 :=
  match m with
  | .ladd => 0x01
  | .lsub => 0x02
  | .lcmp => 0x03
  | .montmul => 0x10
  | .bmontmul => 0x11
  | .nttbfly => 0x20
  | .bktacc => 0x30

/-- OP alone selects the command; every other OP is reserved (30_encoding.md R62, R71). -/
def mnemonicOf (op : Field8) : Option Mnemonic :=
  if op = 0x01 then some .ladd
  else if op = 0x02 then some .lsub
  else if op = 0x03 then some .lcmp
  else if op = 0x10 then some .montmul
  else if op = 0x11 then some .bmontmul
  else if op = 0x20 then some .nttbfly
  else if op = 0x30 then some .bktacc
  else none

/-- `PKT[0][7:0]` (30_encoding.md R61). -/
def Packet.op (p : Packet) : Field8 := p.w0.extractLsb' 0 8

/-- The other header fields: L, W, RSV0 (30_encoding.md R61). -/
def decodeHeader (w : Word) : Header :=
  { limbs := w.extractLsb' 8 8, window := w.extractLsb' 16 8, rsv0 := w.extractLsb' 24 40 }

/-- The parameter words of format LB (30_encoding.md R63). -/
def decodeLB (p : Packet) : FormatLB :=
  { hdr := decodeHeader p.w0, dst := p.w1, a := p.w2, b := p.w3, mbz4 := p.w4, mbz5 := p.w5, mbz6 := p.w6,
    mbz7 := p.w7, mbz8 := p.w8, mbz9 := p.w9 }

/-- The parameter words of format LC (30_encoding.md R64). -/
def decodeLC (p : Packet) : FormatLC :=
  { hdr := decodeHeader p.w0, mbz1 := p.w1, a := p.w2, b := p.w3, mbz4 := p.w4, mbz5 := p.w5, mbz6 := p.w6,
    mbz7 := p.w7, mbz8 := p.w8, mbz9 := p.w9 }

/-- The parameter words of format MM (30_encoding.md R65). -/
def decodeMM (p : Packet) : FormatMM :=
  { hdr := decodeHeader p.w0, dst := p.w1, a := p.w2, b := p.w3, modulus := p.w4, mu := p.w5, mbz6 := p.w6,
    mbz7 := p.w7, mbz8 := p.w8, mbz9 := p.w9 }

/-- The parameter words of format BM (30_encoding.md R66). -/
def decodeBM (p : Packet) : FormatBM :=
  { hdr := decodeHeader p.w0, dst := p.w1, a := p.w2, b := p.w3, modulus := p.w4, mu := p.w5, count := p.w6,
    mbz7 := p.w7, mbz8 := p.w8, mbz9 := p.w9 }

/-- The parameter words of format NB (30_encoding.md R67). -/
def decodeNB (p : Packet) : FormatNB :=
  { hdr := decodeHeader p.w0, outEven := p.w1, outOdd := p.w2, inEven := p.w3, inOdd := p.w4, tw := p.w5,
    twIm := p.w6, n := p.w7, modulus := p.w8, mu := p.w9 }

/-- The parameter words of format BA (30_encoding.md R68). -/
def decodeBA (p : Packet) : FormatBA :=
  { hdr := decodeHeader p.w0, acc := p.w1, idx := p.w2, pts := p.w3, numPoints := p.w4, numBuckets := p.w5,
    coordSize := p.w6, mbz7 := p.w7, mbz8 := p.w8, mbz9 := p.w9 }

/-- What a packet is: one of the seven commands, or a reserved opcode (30_encoding.md R62). -/
inductive Decoded where
  | command (i : Instr)
  /-- OP is none of the seven (30_encoding.md R71): the ENGINE rejects with ERR_OPCODE. -/
  | reservedOpcode (op : Field8)
deriving DecidableEq, Repr

/-- Decoding is total and looks at OP alone (30_encoding.md R62). -/
def decode (p : Packet) : Decoded :=
  match mnemonicOf p.op with
  | some .ladd => .command (.ladd (decodeLB p))
  | some .lsub => .command (.lsub (decodeLB p))
  | some .lcmp => .command (.lcmp (decodeLC p))
  | some .montmul => .command (.montmul (decodeMM p))
  | some .bmontmul => .command (.bmontmul (decodeBM p))
  | some .nttbfly => .command (.nttbfly (decodeNB p))
  | some .bktacc => .command (.bktacc (decodeBA p))
  | none => .reservedOpcode p.op

/-! ### Encoding -/

/-- The mnemonic of a command. -/
def mnemonicOfInstr (i : Instr) : Mnemonic :=
  match i with
  | .ladd _ => .ladd
  | .lsub _ => .lsub
  | .lcmp _ => .lcmp
  | .montmul _ => .montmul
  | .bmontmul _ => .bmontmul
  | .nttbfly _ => .nttbfly
  | .bktacc _ => .bktacc

/-- The header word: RSV0 [63:24], W [23:16], L [15:8], OP [7:0] (30_encoding.md R61). -/
def encodeHeader (m : Mnemonic) (h : Header) : Word := h.rsv0 ++ h.window ++ h.limbs ++ opcodeOf m

/-- The ten words of a command (30_encoding.md R63 to R68). -/
def encode (i : Instr) : Packet :=
  let w0 := encodeHeader (mnemonicOfInstr i) i.hdr
  match i with
  | .ladd f => ⟨w0, f.dst, f.a, f.b, f.mbz4, f.mbz5, f.mbz6, f.mbz7, f.mbz8, f.mbz9⟩
  | .lsub f => ⟨w0, f.dst, f.a, f.b, f.mbz4, f.mbz5, f.mbz6, f.mbz7, f.mbz8, f.mbz9⟩
  | .lcmp f => ⟨w0, f.mbz1, f.a, f.b, f.mbz4, f.mbz5, f.mbz6, f.mbz7, f.mbz8, f.mbz9⟩
  | .montmul f => ⟨w0, f.dst, f.a, f.b, f.modulus, f.mu, f.mbz6, f.mbz7, f.mbz8, f.mbz9⟩
  | .bmontmul f => ⟨w0, f.dst, f.a, f.b, f.modulus, f.mu, f.count, f.mbz7, f.mbz8, f.mbz9⟩
  | .nttbfly f => ⟨w0, f.outEven, f.outOdd, f.inEven, f.inOdd, f.tw, f.twIm, f.n, f.modulus, f.mu⟩
  | .bktacc f => ⟨w0, f.acc, f.idx, f.pts, f.numPoints, f.numBuckets, f.coordSize, f.mbz7, f.mbz8, f.mbz9⟩

/-! ### The opcode table's numbering -/

/-- Word `k` of the low `nbits` bits of `w`, whose bits run on from word to word, bit 0 the lowest of PKT[0]; every bit
above them is 0 (log 18). -/
def wordOfNat (nbits w k : Nat) : Word :=
  match k with
  | 0 => BitVec.ofNat 64 (w % 2 ^ min nbits 64)
  | k + 1 => wordOfNat (nbits - 64) (w / 2 ^ 64) k

/-- The packet whose bits are the low `nbits` bits of `w`, every bit above them 0 (log 18). -/
def packetOfNat (nbits w : Nat) : Packet :=
  ⟨wordOfNat nbits w 0, wordOfNat nbits w 1, wordOfNat nbits w 2, wordOfNat nbits w 3, wordOfNat nbits w 4,
    wordOfNat nbits w 5, wordOfNat nbits w 6, wordOfNat nbits w 7, wordOfNat nbits w 8, wordOfNat nbits w 9⟩

/-- The command a table word stands for, `none` where the decoder finds a reserved opcode. -/
def decodeTableWord (nbits w : Nat) : Option Instr :=
  match decode (packetOfNat nbits w) with
  | .command i => some i
  | .reservedOpcode _ => none

end Sys2Proof
end

