-- ==== Sys2Proof/Config.lean ====
section
/-! DEFINITION. What is fixed for one machine, and the one free value of the model
(00_scope.md R12; 10_state.md R34; 93_implementation_defined.md Part 2, U8). -/

namespace Sys2Proof

/-- The open parameter of the spec that a rule reads (00_scope.md R12). BUS_BINDING is read by no rule and
is not modelled. -/
structure Config where
  /-- MEM_WORDS, the number of 64-bit words of MEM. -/
  memWords : Nat
deriving DecidableEq, Repr

/-- "any natural number with 1 ≤ MEM_WORDS ≤ 2^64" (00_scope.md R12). -/
abbrev Config.wf (c : Config) : Prop := 1 ≤ c.memWords ∧ c.memWords ≤ 2 ^ 64

/-- The value the examples of 95_test_vectors.md use. DESIGN CHOICE (log 1): the spec leaves MEM_WORDS open. -/
def Config.example256 : Config := { memWords := 256 }

/-- FREE VALUE (log 2, safe): what a byte of MEM holds after the reset number `era` until it is written.
10_state.md R34: "every word unspecified", fixed until written. No body, so nothing can be proved of it. -/
opaque Config.powerOnByte (era addr : Nat) : Byte

end Sys2Proof
end

