-- ==== Sys2Proof/Machine/State.lean ====
section
/-! DEFINITION. The state of ZKA-CORE and its two agents, the reasons a step can stop, and reset
(10_state.md R20 to R34). -/

namespace Sys2Proof.Machine

/-- MEM, the operand memory (10_state.md R22), as the bytes something has written since reset. Byte `k` of word
`p` has the address `8p + k` (20_memory.md R42; log 3). An address with no cell holds no written value: reading it
gives the free value `Config.powerOnByte era` (R34; log 2). -/
structure Memory where
  /-- The written bytes, addresses strictly rising. -/
  cells : List Host.Cell
  /-- How many resets MEM has been through: the model's own counter, read by the free contents (log 2, log 13). -/
  era : Nat
deriving DecidableEq, Repr

/-- The canonical form: addresses strictly rising. An unlisted address holds no value, so no cell can equal it. -/
abbrev Memory.wf (m : Memory) : Prop := m.cells.Pairwise fun x y => x.1 < y.1

/-- The HOST's steps on the three ports (10_state.md R20, R32). -/
inductive HostStep where
  /-- HostWrite(p, v) through the memory port. -/
  | write (p : Nat) (v : Word)
  /-- HostRead(p) through the memory port. -/
  | read (p : Nat)
  /-- HostIssue(pkt) through the command port. -/
  | issue (pkt : Packet)
  /-- HostReadRSP through the response port. -/
  | readRsp
deriving DecidableEq, Repr

/-- One turn of the schedule: who moves (log 6). -/
inductive Turn where
  /-- The HOST takes one of its steps. -/
  | host (a : HostStep)
  /-- The HOST does nothing and the ENGINE takes its step, if it has one (10_state.md R33). -/
  | engine
  /-- The reset event from outside (70_reset_and_hazards.md R210). -/
  | reset
deriving DecidableEq, Repr

/-- What a port returned to the HOST (10_state.md R32). -/
inductive Reply where
  /-- HostRead returned this word of MEM. -/
  | word (v : Word)
  /-- HostReadRSP returned RSP and BUSY. -/
  | response (rsp : Word) (busy : Bool)
deriving DecidableEq, Repr

/-- The whole state: the machine's parameter, ZKA-CORE's state (10_state.md R30), and the HOST's data. -/
structure State where
  /-- MEM_WORDS; no step changes it (00_scope.md R12; log 1). -/
  cfg : Config
  /-- MEM (10_state.md R22). -/
  mem : Memory
  /-- RSP, the response register (10_state.md R23). -/
  rsp : Word
  /-- The packet latch, which exists while BUSY = 1 (10_state.md R28(a), R26; log 4, log 5). -/
  latch : Option Packet
  /-- The turns still to come, the HOST's list of steps in it (10_state.md R25; log 6). -/
  schedule : List Turn
  /-- What the ports returned to the HOST, newest first (log 14). -/
  hostLog : List Reply
deriving DecidableEq, Repr

/-- BUSY (10_state.md R26): 1 exactly while the latch holds a packet (log 4, DEDUCED, safe). -/
def State.busy (s : State) : Bool := s.latch.isSome

/-- Why the machine stops with a fault. -/
inductive Fault where
  /-- Raised by a HOST access to a word `p` with `p >= MEM_WORDS`: "A HOST access with p >= MEM_WORDS has no
  step (the memory port has no such word)" (10_state.md R32; log 12). Safe. No command raises it. -/
  | noSuchWord (p : Nat)
deriving DecidableEq, Repr

/-- Why the machine refuses a step. -/
inductive Refusal where
  /-- An instruction that has no meaning yet. Safe. No arm of `exec` answers with it. -/
  | notModelled (mnemonic : String)
  /-- Raised by a HOST access to MEM while BUSY = 1: "the model refuses such a run rather than give it a value"
  (70_reset_and_hazards.md R216; U7; log 10). Safe. No command raises it. -/
  | hostMemWhileBusy
deriving DecidableEq, Repr

/-- The machine right after reset (10_state.md R34): BUSY = 0, RSP = 0, no word of MEM written. MEM_WORDS is 256
by DESIGN CHOICE (log 1), the HOST has nothing scheduled and has seen nothing by DESIGN CHOICE (log 6, log 14). -/
def State.reset : State :=
  { cfg := Config.example256, mem := { cells := [], era := 0 }, rsp := 0, latch := none, schedule := [],
    hostLog := [] }

end Sys2Proof.Machine
end

