-- ==== Sys2Proof/Machine/Flags.lean ====
section
/-! DEFINITION. The fields of RSP: STATUS, CY and CMP (10_state.md R23, R27; 60_exceptions.md R182). -/

namespace Sys2Proof.Machine

/-- The status codes (60_exceptions.md R182). -/
inductive Status where
  | ok
  | errOpcode
  | errReserved
  | errLimbs
  | errWindow
  | errRange
  | errOverlap
deriving DecidableEq, Repr

/-- The code of a status (60_exceptions.md R182). -/
def statusCode (st : Status) : Field8 :=
  match st with
  | .ok => 0x00
  | .errOpcode => 0x01
  | .errReserved => 0x02
  | .errLimbs => 0x03
  | .errWindow => 0x04
  | .errRange => 0x05
  | .errOverlap => 0x06

/-- The result of a comparison (40_limb_arithmetic.md R93). -/
inductive Comparison where
  | less
  | equal
  | greater
deriving DecidableEq, Repr

/-- CMP: 1 less, 2 equal, 3 greater, 0 no comparison made (10_state.md R23). -/
def cmpCode (c : Option Comparison) : BitVec 2 :=
  match c with
  | none => 0
  | some .less => 1
  | some .equal => 2
  | some .greater => 3

/-- RSP written whole: STATUS [7:0], CY [8], CMP [10:9], [63:11] zero (10_state.md R23). -/
def rspWord (st : Status) (cy : Bool) (cmp : Option Comparison) : Word :=
  (0 : BitVec 53) ++ cmpCode cmp ++ BitVec.ofBool cy ++ statusCode st

/-- `RSP[7:0]`, STATUS. -/
def rspStatus (w : Word) : Field8 := w.extractLsb' 0 8

/-- `RSP[8]`, CY. -/
def rspCy (w : Word) : Bool := w.getLsbD 8

/-- `RSP[10:9]`, CMP. -/
def rspCmp (w : Word) : BitVec 2 := w.extractLsb' 9 2

/-- `RSP[63:11]`, always zero. -/
def rspUpper (w : Word) : BitVec 53 := w.extractLsb' 11 53

end Sys2Proof.Machine
end

