-- ==== Sys2Proof/Machine/Ops.lean ====
section
/-! DEFINITION. The shared operations on MEM, RSP and the packet latch (00_scope.md R15; 20_memory.md; 60_exceptions.md
R181). ZKA-CORE has no trap and no return from one (60_exceptions.md R180, R190): `reject` is its one abnormal end. -/

namespace Sys2Proof.Machine

/-! ### Bytes of MEM -/

/-- The byte written at address `a`, if one is. -/
def cellAt (a : Nat) (cells : List Host.Cell) : Option Byte :=
  match cells with
  | [] => none
  | c :: rest => if c.1 = a then some c.2 else cellAt a rest

/-- The cells with byte `b` at address `a`, every other cell as it was. -/
def setCell (a : Nat) (b : Byte) (cells : List Host.Cell) : List Host.Cell :=
  match cells with
  | [] => [(a, b)]
  | c :: rest =>
    if a < c.1 then (a, b) :: c :: rest
    else if a = c.1 then (a, b) :: rest
    else c :: setCell a b rest

/-- The one read of a byte. A byte nothing has written since reset reads as the free value (10_state.md R34; log 2). -/
def readByte (m : Memory) (a : Nat) : Byte :=
  match cellAt a m.cells with
  | some b => b
  | none => Config.powerOnByte m.era a

/-- The one write of a byte. -/
def writeByte (m : Memory) (a : Nat) (b : Byte) : Memory := { m with cells := setCell a b m.cells }

/-! ### Words of MEM: byte `k` of word `p` at `8p + k` (20_memory.md R42, R45) -/

/-- Byte `k` of a word: bits 8k+7 down to 8k (20_memory.md R42). -/
def byteOf (v : Word) (k : Nat) : Byte := v.extractLsb' (8 * k) 8

/-- `MEM[p]` (00_scope.md R15). -/
def readWord (m : Memory) (p : Nat) : Word :=
  readByte m (8 * p + 7) ++ readByte m (8 * p + 6) ++ readByte m (8 * p + 5) ++ readByte m (8 * p + 4)
    ++ readByte m (8 * p + 3) ++ readByte m (8 * p + 2) ++ readByte m (8 * p + 1) ++ readByte m (8 * p)

/-- `MEM[p] <- v` (00_scope.md R15). -/
def writeWord (m : Memory) (p : Nat) (v : Word) : Memory :=
  let m := writeByte m (8 * p) (byteOf v 0)
  let m := writeByte m (8 * p + 1) (byteOf v 1)
  let m := writeByte m (8 * p + 2) (byteOf v 2)
  let m := writeByte m (8 * p + 3) (byteOf v 3)
  let m := writeByte m (8 * p + 4) (byteOf v 4)
  let m := writeByte m (8 * p + 5) (byteOf v 5)
  let m := writeByte m (8 * p + 6) (byteOf v 6)
  writeByte m (8 * p + 7) (byteOf v 7)

/-- `MemRead(p, n)`: the words `p .. p+n-1`, word `p` first (00_scope.md R15). -/
def readWords (m : Memory) (p n : Nat) : List Word :=
  match n with
  | 0 => []
  | n + 1 => readWord m p :: readWords m (p + 1) n

/-- `MemWrite(p, n, v)`, `n` the length of `v`: element 0 to `MEM[p]` (00_scope.md R15). -/
def writeWords (m : Memory) (p : Nat) (vs : List Word) : Memory :=
  match vs with
  | [] => m
  | v :: rest => writeWords (writeWord m p v) (p + 1) rest

/-! ### The end of a command -/

/-- A completed command: MEM as `m`, RSP written whole with STATUS = OK, BUSY <- 0 (10_state.md R23, R33). -/
def complete (m : Memory) (cy : Bool) (cmp : Option Comparison) (s : State) : State :=
  { s with mem := m, rsp := rspWord .ok cy cmp, latch := none }

/-- `reject(code)`: RSP <- code, MEM unchanged, BUSY <- 0, the latch dropped (60_exceptions.md R181). -/
def reject (st : Status) (s : State) : State := { s with rsp := rspWord st false none, latch := none }

/-- Run a command's rule if no check failed, else reject with the failure's code (60_exceptions.md R183). -/
def runUnless (failure : Option Status) (s : State) (rule : State → State) :
    Host.Outcome State Fault Refusal :=
  match failure with
  | some st => .next (reject st s)
  | none => .next (rule s)

end Sys2Proof.Machine
end

