-- ==== Sys2Proof/Machine/Operands.lean ====
section
/-! DEFINITION. Operand forms: regions, the regions of each command, and the elements of arrays
(00_scope.md R16; 20_memory.md R44; 30_encoding.md R69, R72). Every field is unsigned and every address and length
is an unbounded natural number (R69). -/

namespace Sys2Proof.Machine

/-- The words `base .. base+len-1` (00_scope.md R16). -/
structure Region where
  base : Nat
  len : Nat
deriving DecidableEq, Repr

/-- `InRange(X)` for a memory of `n` words (00_scope.md R16). -/
def Region.inRange (n : Nat) (x : Region) : Bool := decide (x.len = 0 ∨ x.base + x.len ≤ n)

/-- `Overlap(X, Y)` (00_scope.md R16). -/
def Region.overlap (x y : Region) : Bool :=
  decide (0 < x.len ∧ 0 < y.len ∧ x.base < y.base + y.len ∧ y.base < x.base + x.len)

/-- `Coincide(X, Y)` (00_scope.md R16). -/
def Region.coincide (x y : Region) : Bool := decide (x.base = y.base ∧ x.len = y.len)

/-- The regions of a command by class (30_encoding.md R72). -/
structure RegionTable where
  /-- Written. -/
  out : List Region
  /-- Read and written. -/
  inout : List Region
  /-- Read; may coincide with an `out` region. -/
  inArray : List Region
  /-- Read; disjoint from every `out` and `inout` region. -/
  inFixed : List Region
deriving DecidableEq, Repr

/-- Every region of the table. -/
def RegionTable.all (t : RegionTable) : List Region := t.out ++ t.inout ++ t.inArray ++ t.inFixed

/-- The limb count L as a number, zero-extended (30_encoding.md R69). -/
def limbCount (h : Header) : Nat := h.limbs.toNat

/-- The window size W as a number. -/
def windowBits (h : Header) : Nat := h.window.toNat

/-- The regions of a command, L as given, supported or not (30_encoding.md R72). -/
def regionsOf (i : Instr) : RegionTable :=
  match i with
  | .ladd f =>
    let L := limbCount f.hdr
    { out := [⟨f.dst.toNat, L⟩], inout := [], inArray := [⟨f.a.toNat, L⟩, ⟨f.b.toNat, L⟩], inFixed := [] }
  | .lsub f =>
    let L := limbCount f.hdr
    { out := [⟨f.dst.toNat, L⟩], inout := [], inArray := [⟨f.a.toNat, L⟩, ⟨f.b.toNat, L⟩], inFixed := [] }
  | .lcmp f =>
    let L := limbCount f.hdr
    { out := [], inout := [], inArray := [⟨f.a.toNat, L⟩, ⟨f.b.toNat, L⟩], inFixed := [] }
  | .montmul f =>
    let L := limbCount f.hdr
    { out := [⟨f.dst.toNat, L⟩], inout := [], inArray := [⟨f.a.toNat, L⟩, ⟨f.b.toNat, L⟩],
      inFixed := [⟨f.modulus.toNat, L⟩] }
  | .bmontmul f =>
    let L := limbCount f.hdr
    let n := f.count.toNat * L
    { out := [⟨f.dst.toNat, n⟩], inout := [], inArray := [⟨f.a.toNat, n⟩, ⟨f.b.toNat, n⟩],
      inFixed := [⟨f.modulus.toNat, L⟩] }
  | .nttbfly f =>
    let L := limbCount f.hdr
    let n := f.n.toNat * L
    { out := [⟨f.outEven.toNat, n⟩, ⟨f.outOdd.toNat, n⟩], inout := [],
      inArray := [⟨f.inEven.toNat, n⟩, ⟨f.inOdd.toNat, n⟩, ⟨f.tw.toNat, n⟩],
      inFixed := [⟨f.modulus.toNat, L⟩] }
  | .bktacc f =>
    { out := [], inout := [⟨f.acc.toNat, f.numBuckets.toNat * f.coordSize.toNat⟩], inArray := [],
      inFixed := [⟨f.idx.toNat, f.numPoints.toNat⟩, ⟨f.pts.toNat, f.numPoints.toNat * f.coordSize.toNat⟩] }

/-- Element `i` of an array of `L`-limb elements at `p`: words `p + i*L` to `p + i*L + L - 1` (20_memory.md R44). -/
def readElem (m : Memory) (p L i : Nat) : Limbs := readWords m (p + i * L) L

/-- The address of slot `c` of bucket `d`, `d >= 1`, in a bucket array at `p` (20_memory.md R44). -/
def bucketSlot (p coordSize d c : Nat) : Nat := p + (d - 1) * coordSize + c

/-- The address of slot `c` of point `k` in a point array at `p` (20_memory.md R44). -/
def pointSlot (p coordSize k c : Nat) : Nat := p + k * coordSize + c

end Sys2Proof.Machine
end

