-- ==== Sys2Proof/Machine/Checks.lean ====
section
/-! DEFINITION. The validity checks, made on the packet and MEM_WORDS alone, in their fixed order
(60_exceptions.md R183 to R187). -/

namespace Sys2Proof.Machine

/-- Check (2), ERR_RESERVED: every must-be-zero field and word is zero (60_exceptions.md R184). -/
def reservedOk (i : Instr) : Bool :=
  match i with
  | .ladd f => f.hdr.rsv0 == 0 && f.hdr.window == 0
      && [f.mbz4, f.mbz5, f.mbz6, f.mbz7, f.mbz8, f.mbz9].all (· == 0)
  | .lsub f => f.hdr.rsv0 == 0 && f.hdr.window == 0
      && [f.mbz4, f.mbz5, f.mbz6, f.mbz7, f.mbz8, f.mbz9].all (· == 0)
  | .lcmp f => f.hdr.rsv0 == 0 && f.hdr.window == 0
      && [f.mbz1, f.mbz4, f.mbz5, f.mbz6, f.mbz7, f.mbz8, f.mbz9].all (· == 0)
  | .montmul f => f.hdr.rsv0 == 0 && f.hdr.window == 0 && [f.mbz6, f.mbz7, f.mbz8, f.mbz9].all (· == 0)
  | .bmontmul f => f.hdr.rsv0 == 0 && f.hdr.window == 0 && [f.mbz7, f.mbz8, f.mbz9].all (· == 0)
  | .nttbfly f => f.hdr.rsv0 == 0 && f.hdr.window == 0
  | .bktacc f => f.hdr.rsv0 == 0 && f.hdr.limbs == 0 && [f.mbz7, f.mbz8, f.mbz9].all (· == 0)

/-- The supported limb counts, 4 and 6 (00_scope.md R10). -/
def limbsSupported (h : Header) : Bool := h.limbs == 4 || h.limbs == 6

/-- Check (3), ERR_LIMBS, of the commands that can raise it; BMONTMUL and BKTACC never do (60_exceptions.md R185). -/
def limbsOk (i : Instr) : Bool :=
  match i with
  | .ladd f => limbsSupported f.hdr
  | .lsub f => limbsSupported f.hdr
  | .lcmp f => limbsSupported f.hdr
  | .montmul f => limbsSupported f.hdr
  | .bmontmul _ => true
  | .nttbfly f => limbsSupported f.hdr
  | .bktacc _ => true

/-- Check (3), ERR_WINDOW, of BKTACC: W is at most 64 (60_exceptions.md R185). -/
def windowOk (i : Instr) : Bool :=
  match i with
  | .ladd _ => true
  | .lsub _ => true
  | .lcmp _ => true
  | .montmul _ => true
  | .bmontmul _ => true
  | .nttbfly _ => true
  | .bktacc f => decide (windowBits f.hdr ≤ 64)

/-- Check (4), ERR_RANGE: every region is inside a MEM of `n` words (60_exceptions.md R186). -/
def rangesOk (n : Nat) (t : RegionTable) : Bool := t.all.all (Region.inRange n)

/-- No two regions of the list overlap. -/
def disjointList (xs : List Region) : Bool :=
  match xs with
  | [] => true
  | x :: rest => rest.all (fun y => !x.overlap y) && disjointList rest

/-- Check (5), ERR_OVERLAP, its clauses (a), (b), (c) in order (60_exceptions.md R187). -/
def overlapsOk (t : RegionTable) : Bool :=
  disjointList t.out
    && t.inArray.all (fun i => t.out.all fun x => !x.overlap i || x.coincide i)
    && t.inFixed.all (fun f => (t.out ++ t.inout).all fun x => !x.overlap f)

/-- The code of the first check that fails, in the fixed order (60_exceptions.md R183); `none` if all pass.
Check (1), ERR_OPCODE, is the decoder's: a term of `Instr` has passed it. -/
def firstFailure (n : Nat) (i : Instr) : Option Status :=
  if !reservedOk i then some .errReserved
  else if !limbsOk i then some .errLimbs
  else if !windowOk i then some .errWindow
  else if !rangesOk n (regionsOf i) then some .errRange
  else if !overlapsOk (regionsOf i) then some .errOverlap
  else none

/-- Validate a command, then run its rule or reject it (10_state.md R33, 60_exceptions.md R183). -/
def validated (i : Instr) (s : State) (rule : State → State) : Host.Outcome State Fault Refusal :=
  runUnless (firstFailure s.cfg.memWords i) s rule

end Sys2Proof.Machine
end

