-- ==== Sys2Proof/Machine/Limbs.lean ====
section
/-! DEFINITION. The limb arithmetic primitives (40_limb_arithmetic.md R90 to R94). They are defined on lists and
meant for lists of equal length, the only ones a command can form (R94); on others they stop with the shorter
list (log 15). -/

namespace Sys2Proof.Machine

/-- `val(a)`, the value of a limb sequence (00_scope.md R14). -/
def val (a : Limbs) : Nat :=
  match a with
  | [] => 0
  | x :: rest => x.toNat + 2 ^ 64 * val rest

/-- `limbs_L(v)`, the limb sequence of length `L` with value `v mod 2^(64 L)` (00_scope.md R14). -/
def limbsOf (L v : Nat) : Limbs :=
  match L with
  | 0 => []
  | L + 1 => BitVec.ofNat 64 v :: limbsOf L (v / 2 ^ 64)

/-- The loop of AddWithCarry from a given carry on (40_limb_arithmetic.md R91). -/
def addLoop (a b : Limbs) (c : Bool) : Limbs × Bool :=
  match a, b with
  | x :: a, y :: b =>
    let s := x.toNat + y.toNat + c.toNat
    let rest := addLoop a b (decide (2 ^ 64 ≤ s))
    (BitVec.ofNat 64 s :: rest.1, rest.2)
  | _, _ => ([], c)

/-- AddWithCarry(a, b): the carry into limb 0 is 0 (40_limb_arithmetic.md R91). -/
def addWithCarry (a b : Limbs) : Limbs × Bool := addLoop a b false

/-- The loop of SubWithBorrow from a given borrow on (40_limb_arithmetic.md R92). -/
def subLoop (a b : Limbs) (w : Bool) : Limbs × Bool :=
  match a, b with
  | x :: a, y :: b =>
    let d : Int := (x.toNat : Int) - (y.toNat : Int) - (w.toNat : Int)
    let rest := subLoop a b (decide (d < 0))
    (BitVec.ofInt 64 d :: rest.1, rest.2)
  | _, _ => ([], w)

/-- SubWithBorrow(a, b): the borrow into limb 0 is 0 (40_limb_arithmetic.md R92). -/
def subWithBorrow (a b : Limbs) : Limbs × Bool := subLoop a b false

/-- Compare(a, b), from the most significant limb to the least (40_limb_arithmetic.md R93). -/
def compareLimbs (a b : Limbs) : Comparison :=
  match a, b with
  | x :: a, y :: b =>
    match compareLimbs a b with
    | .less => .less
    | .greater => .greater
    | .equal => if x < y then .less else if y < x then .greater else .equal
  | _, _ => .equal

end Sys2Proof.Machine
end

