-- ==== Sys2Proof/Machine/Montgomery.lean ====
section
/-! DEFINITION. The Montgomery engine and MONTMUL (41_montgomery.md R110 to R118).

The scratch accumulator T is the argument `t` of the loops below (10_state.md R28: "A model represents T as a local
variable"; log 5). Iteration `i` of each loop sees T from limb `i` on: the limbs below `i` are finished. -/

namespace Sys2Proof.Machine

/-- The inner loop both phases share: add `x * y` limb by limb to `t` with a 64-bit carry, `p` exact
(41_montgomery.md R110, R112). Answers the new limbs and the carry out. -/
def mulAddLoop (x : Word) (y t : Limbs) (carry : Word) : Limbs × Word :=
  match y, t with
  | yj :: y, tj :: t =>
    let p := x.toNat * yj.toNat + tj.toNat + carry.toNat
    let rest := mulAddLoop x y t (BitVec.ofNat 64 (p / 2 ^ 64))
    (BitVec.ofNat 64 p :: rest.1, rest.2)
  | _, _ => ([], carry)

/-- The rows of SchoolbookMul from row `i` on: `a` holds `a[i..]` and `t` the limbs `t[i..i+L-1]`; the row's carry
becomes limb `i+L` and limb `i` is finished (41_montgomery.md R110). -/
def schoolbookRows (a b t : Limbs) : Limbs :=
  match a with
  | [] => t
  | x :: a =>
    let row := mulAddLoop x b t 0
    match row.1 ++ [row.2] with
    | done :: t => done :: schoolbookRows a b t
    | [] => []

/-- SchoolbookMul(a, b): the exact product in `2L` limbs (41_montgomery.md R110). -/
def schoolbookMul (a b : Limbs) : Limbs := schoolbookRows a b (List.replicate b.length 0)

/-- Propagate a carry through the remaining limbs of T; a carry out of limb 2L-1 is discarded
(41_montgomery.md R112, R113). -/
def propagateCarry (t : Limbs) (carry : Word) : Limbs :=
  match t with
  | [] => []
  | tk :: t =>
    let s := tk.toNat + carry.toNat
    BitVec.ofNat 64 s :: propagateCarry t (BitVec.ofNat 64 (s / 2 ^ 64))

/-- One iteration of MontReduce on `t[i..2L-1]`: `q = t[i] * mu mod 2^64`, add `q * m` at limb offset `i`, propagate
(41_montgomery.md R112). -/
def montIteration (m : Limbs) (mu : Word) (t : Limbs) : Limbs :=
  let q := t.headD 0 * mu
  let row := mulAddLoop q m (t.take m.length) 0
  row.1 ++ propagateCarry (t.drop m.length) row.2

/-- `n` iterations of MontReduce; each leaves limb `i` behind and goes on with `t[i+1..]` (41_montgomery.md R112). -/
def montRounds (m : Limbs) (mu : Word) (n : Nat) (t : Limbs) : Limbs :=
  match n with
  | 0 => t
  | n + 1 => montRounds m mu n (montIteration m mu t).tail

/-- The one conditional subtraction at the end of MontReduce (41_montgomery.md R112). -/
def reduceOnce (r m : Limbs) : Limbs := if compareLimbs r m = .less then r else (subWithBorrow r m).1

/-- MontReduce(t, m, mu): L iterations, then `r = t[L..2L-1]` and one conditional subtraction (41_montgomery.md
R112). -/
def montReduce (t m : Limbs) (mu : Word) : Limbs := reduceOnce (montRounds m mu m.length t) m

/-- MontMul(a, b, m, mu) (41_montgomery.md R114), total, the literal value outside the contract of R115 too
(R117, R118; log 8). -/
def montMul (a b m : Limbs) (mu : Word) : Limbs := montReduce (schoolbookMul a b) m mu

/-- The rule of MONTMUL (41_montgomery.md R116). -/
def ruleMontmul (f : FormatMM) (s : State) : State :=
  let L := limbCount f.hdr
  let a := readWords s.mem f.a.toNat L
  let b := readWords s.mem f.b.toNat L
  let m := readWords s.mem f.modulus.toNat L
  complete (writeWords s.mem f.dst.toNat (montMul a b m f.mu)) false none s

/-- MONTMUL, Montgomery multiply. -/
def execMontmul (f : FormatMM) (s : State) : Host.Outcome State Fault Refusal :=
  validated (.montmul f) s (ruleMontmul f)

end Sys2Proof.Machine
end

