-- ==== Sys2Proof/Machine/Batch.lean ====
section
/-! DEFINITION. BMONTMUL (42_batch_montmul.md R130 to R134). -/

namespace Sys2Proof.Machine

/-- The product of element pair `i`, read from the memory `m` (42_batch_montmul.md R131). -/
def batchElem (f : FormatBM) (m : Memory) (i : Nat) : Limbs :=
  let L := limbCount f.hdr
  montMul (readElem m f.a.toNat L i) (readElem m f.b.toNat L i) (readWords m f.modulus.toNat L) f.mu

/-- The words BMONTMUL writes at DST, all of them computed from the pre-state (20_memory.md R49): the products for
L in 4, 6, else COUNT x L zeros (42_batch_montmul.md R131, R132). -/
def batchResult (f : FormatBM) (m : Memory) : List Word :=
  if limbsSupported f.hdr then (List.range f.count.toNat).flatMap (batchElem f m)
  else List.replicate (f.count.toNat * limbCount f.hdr) 0

/-- The rule of BMONTMUL (42_batch_montmul.md R131). -/
def ruleBmontmul (f : FormatBM) (s : State) : State :=
  complete (writeWords s.mem f.dst.toNat (batchResult f s.mem)) false none s

/-- BMONTMUL, batch Montgomery multiply. -/
def execBmontmul (f : FormatBM) (s : State) : Host.Outcome State Fault Refusal :=
  validated (.bmontmul f) s (ruleBmontmul f)

end Sys2Proof.Machine
end

