-- ==== Sys2Proof/Machine/Bucket.lean ====
section
/-! DEFINITION. BKTACC (44_msm_bucket.md R160 to R166). -/

namespace Sys2Proof.Machine

/-- The mask `2^W - 1`, W from 0 to 64 (44_msm_bucket.md R161). -/
def windowMask (W : Nat) : Word := BitVec.ofNat 64 (2 ^ W - 1)

/-- `digit_k = MEM[IDX + k] & (2^W - 1)` (44_msm_bucket.md R161). -/
def digitOf (f : FormatBA) (m : Memory) (k : Nat) : Nat :=
  (readWord m (f.idx.toNat + k) &&& windowMask (windowBits f.hdr)).toNat

/-- Add slots `0 .. n-1` of point `k`, read from `pre`, to bucket `d` of `m`, each modulo 2^64 with no carry from
slot to slot (44_msm_bucket.md R162, R164; log 9). -/
def addPointSlots (f : FormatBA) (pre : Memory) (k d n : Nat) (m : Memory) : Memory :=
  match n with
  | 0 => m
  | c + 1 =>
    let m := addPointSlots f pre k d c m
    let slot := bucketSlot f.acc.toNat f.coordSize.toNat d c
    writeWord m slot (readWord m slot + readWord pre (pointSlot f.pts.toNat f.coordSize.toNat k c))

/-- Point `k`: digit 0 and a digit above NUM_BUCKETS are skipped (44_msm_bucket.md R160, R162). -/
def addPoint (f : FormatBA) (pre : Memory) (k : Nat) (m : Memory) : Memory :=
  let d := digitOf f pre k
  if d ≠ 0 ∧ d ≤ f.numBuckets.toNat then addPointSlots f pre k d f.coordSize.toNat m else m

/-- Points `0 .. n-1` in the reference order; IDX and PTS are read from `pre` (44_msm_bucket.md R162; 20_memory.md
R49). -/
def addPoints (f : FormatBA) (pre : Memory) (n : Nat) (m : Memory) : Memory :=
  match n with
  | 0 => m
  | k + 1 => addPoint f pre k (addPoints f pre k m)

/-- The rule of BKTACC (44_msm_bucket.md R162). -/
def ruleBktacc (f : FormatBA) (s : State) : State :=
  complete (addPoints f s.mem f.numPoints.toNat s.mem) false none s

/-- BKTACC, bucket accumulate. -/
def execBktacc (f : FormatBA) (s : State) : Host.Outcome State Fault Refusal :=
  validated (.bktacc f) s (ruleBktacc f)

end Sys2Proof.Machine
end

