-- ==== Sys2Proof/Machine/Butterfly.lean ====
section
/-! DEFINITION. NTTBFLY and the field addition and subtraction it uses (43_ntt_butterfly.md R140 to R147). -/

namespace Sys2Proof.Machine

/-- ModAdd(a, b, m) (43_ntt_butterfly.md R141). -/
def modAdd (a b m : Limbs) : Limbs :=
  let r := addWithCarry a b
  if r.2 = true ∨ compareLimbs r.1 m ≠ .less then (subWithBorrow r.1 m).1 else r.1

/-- ModSub(a, b, m) (43_ntt_butterfly.md R142). -/
def modSub (a b m : Limbs) : Limbs :=
  let r := subWithBorrow a b
  if r.2 = true then (addWithCarry r.1 m).1 else r.1

/-- Bfly(e, o, tw, m, mu): `t` is computed once and used in both outputs (43_ntt_butterfly.md R143). -/
def bfly (e o tw m : Limbs) (mu : Word) : Limbs × Limbs :=
  let t := montMul tw o m mu
  (modAdd e t m, modSub e t m)

/-- The butterfly of pair `i`, read from the memory `m`; PKT[6], TW_IM, is never read (43_ntt_butterfly.md R145,
R146). -/
def bflyElem (f : FormatNB) (m : Memory) (i : Nat) : Limbs × Limbs :=
  let L := limbCount f.hdr
  bfly (readElem m f.inEven.toNat L i) (readElem m f.inOdd.toNat L i) (readElem m f.tw.toNat L i)
    (readWords m f.modulus.toNat L) f.mu

/-- The words NTTBFLY writes at OUT_EVEN, computed from the pre-state (20_memory.md R49). -/
def bflyEvens (f : FormatNB) (m : Memory) : List Word := (List.range f.n.toNat).flatMap fun i => (bflyElem f m i).1

/-- The words NTTBFLY writes at OUT_ODD, computed from the pre-state (20_memory.md R49). -/
def bflyOdds (f : FormatNB) (m : Memory) : List Word := (List.range f.n.toNat).flatMap fun i => (bflyElem f m i).2

/-- The rule of NTTBFLY (43_ntt_butterfly.md R145). -/
def ruleNttbfly (f : FormatNB) (s : State) : State :=
  let m := writeWords s.mem f.outEven.toNat (bflyEvens f s.mem)
  complete (writeWords m f.outOdd.toNat (bflyOdds f s.mem)) false none s

/-- NTTBFLY, butterfly step. -/
def execNttbfly (f : FormatNB) (s : State) : Host.Outcome State Fault Refusal :=
  validated (.nttbfly f) s (ruleNttbfly f)

end Sys2Proof.Machine
end

