-- ==== Sys2Proof/Machine/LimbCommands.lean ====
section
/-! DEFINITION. LADD, LSUB, LCMP (40_limb_arithmetic.md R95 to R98). -/

namespace Sys2Proof.Machine

/-- The rule of LADD (40_limb_arithmetic.md R95). -/
def ruleLadd (f : FormatLB) (s : State) : State :=
  let L := limbCount f.hdr
  let r := addWithCarry (readWords s.mem f.a.toNat L) (readWords s.mem f.b.toNat L)
  complete (writeWords s.mem f.dst.toNat r.1) r.2 none s

/-- LADD, limb add. -/
def execLadd (f : FormatLB) (s : State) : Host.Outcome State Fault Refusal := validated (.ladd f) s (ruleLadd f)

/-- The rule of LSUB (40_limb_arithmetic.md R96). -/
def ruleLsub (f : FormatLB) (s : State) : State :=
  let L := limbCount f.hdr
  let r := subWithBorrow (readWords s.mem f.a.toNat L) (readWords s.mem f.b.toNat L)
  complete (writeWords s.mem f.dst.toNat r.1) r.2 none s

/-- LSUB, limb subtract. -/
def execLsub (f : FormatLB) (s : State) : Host.Outcome State Fault Refusal := validated (.lsub f) s (ruleLsub f)

/-- The rule of LCMP: MEM is not written (40_limb_arithmetic.md R97). -/
def ruleLcmp (f : FormatLC) (s : State) : State :=
  let L := limbCount f.hdr
  complete s.mem false (some (compareLimbs (readWords s.mem f.a.toNat L) (readWords s.mem f.b.toNat L))) s

/-- LCMP, limb compare. -/
def execLcmp (f : FormatLC) (s : State) : Host.Outcome State Fault Refusal := validated (.lcmp f) s (ruleLcmp f)

end Sys2Proof.Machine
end

