-- ==== Sys2Proof/Machine/Dispatch.lean ====
section
/-! DEFINITION. One arm per command (30_encoding.md R70). -/

namespace Sys2Proof.Machine

def exec (i : Instr) (s : State) : Host.Outcome State Fault Refusal :=
  match i with
  | .ladd f => Sys2Proof.Machine.execLadd f s
  | .lsub f => Sys2Proof.Machine.execLsub f s
  | .lcmp f => Sys2Proof.Machine.execLcmp f s
  | .montmul f => Sys2Proof.Machine.execMontmul f s
  | .bmontmul f => Sys2Proof.Machine.execBmontmul f s
  | .nttbfly f => Sys2Proof.Machine.execNttbfly f s
  | .bktacc f => Sys2Proof.Machine.execBktacc f s

end Sys2Proof.Machine
end

