-- ==== Sys2Proof/Machine/Ports.lean ====
section
/-! DEFINITION. The HOST's steps on the three ports and the reset event (10_state.md R20, R32; 70_reset_and_hazards.md
R210, R211, R215, R216). -/

namespace Sys2Proof.Machine

/-- Run a HOST access to word `p` of MEM: refused while BUSY = 1 (70_reset_and_hazards.md R216; log 10), no step for
a word MEM does not have (10_state.md R32; log 12). -/
def hostMemAccess (p : Nat) (s s' : State) : Host.Outcome State Fault Refusal :=
  if s.busy then .refused .hostMemWhileBusy
  else if p < s.cfg.memWords then .next s'
  else .fault (.noSuchWord p)

/-- HostWrite(p, v): `MEM[p] <- v` (10_state.md R32). -/
def hostWrite (p : Nat) (v : Word) (s : State) : Host.Outcome State Fault Refusal :=
  hostMemAccess p s { s with mem := writeWord s.mem p v }

/-- HostRead(p): returns `MEM[p]`, no other effect (10_state.md R32; log 14). -/
def hostRead (p : Nat) (s : State) : Host.Outcome State Fault Refusal :=
  hostMemAccess p s { s with hostLog := .word (readWord s.mem p) :: s.hostLog }

/-- HostIssue(pkt): the latch takes the packet and BUSY becomes 1, RSP unchanged (10_state.md R32). A packet presented
while BUSY = 1 is not accepted and has no effect (70_reset_and_hazards.md R215; log 11). -/
def hostIssue (pkt : Packet) (s : State) : Host.Outcome State Fault Refusal :=
  if s.busy then .next s else .next { s with latch := some pkt }

/-- HostReadRSP: returns (RSP, BUSY), always enabled, no other effect (10_state.md R32; log 14). -/
def hostReadRsp (s : State) : Host.Outcome State Fault Refusal :=
  .next { s with hostLog := .response s.rsp s.busy :: s.hostLog }

/-- The HOST takes one of its steps. -/
def hostTurn (a : HostStep) (s : State) : Host.Outcome State Fault Refusal :=
  match a with
  | .write p v => hostWrite p v s
  | .read p => hostRead p s
  | .issue pkt => hostIssue pkt s
  | .readRsp => hostReadRsp s

/-- The reset event: BUSY = 0, RSP = 0, every word of MEM unspecified again; a command in flight is abandoned
(70_reset_and_hazards.md R210, R211). The new contents of MEM are fresh free values, and the HOST's own data stays
(log 13). -/
def resetEvent (s : State) : State :=
  { s with mem := { cells := [], era := s.mem.era + 1 }, rsp := 0, latch := none }

end Sys2Proof.Machine
end

