-- ==== Sys2Proof/Machine/Engine.lean ====
section
/-! DEFINITION. The ENGINE's step and whose turn it is (10_state.md R31 to R33). -/

namespace Sys2Proof.Machine

/-- Complete: while BUSY = 1, decode, validate and perform the latched packet in one step; a reserved opcode is
rejected with ERR_OPCODE (10_state.md R33; 60_exceptions.md R184). While BUSY = 0 the ENGINE has no step and nothing
changes. -/
def engineTurn (s : State) : Host.Outcome State Fault Refusal :=
  match s.latch with
  | none => .next s
  | some pkt =>
    match decode pkt with
    | .command i => exec i s
    | .reservedOpcode _ => .next (reject .errOpcode s)

/-- The next turn of the schedule; when the schedule is empty the ENGINE has every turn (70_reset_and_hazards.md
R221: "the ENGINE's step is eventually taken when BUSY = 1"; log 6). -/
def takeTurn (s : State) : Host.Outcome State Fault Refusal :=
  match s.schedule with
  | [] => engineTurn s
  | .engine :: rest => engineTurn { s with schedule := rest }
  | .host a :: rest => hostTurn a { s with schedule := rest }
  | .reset :: rest => .next (resetEvent { s with schedule := rest })

end Sys2Proof.Machine
end

