-- ==== Sys2Proof/Machine/Step.lean ====
section
/-! DEFINITION. One step of the machine, and where a test puts a packet so that the next step runs it. -/

namespace Sys2Proof.Machine

/-- One step: whose turn it is moves (log 6). -/
def step (s : State) : Host.Outcome State Fault Refusal := takeTurn s

/-- `s` with a packet accepted and nothing scheduled before the ENGINE's turn, so that the very next step runs it:
HostIssue done by the outside (10_state.md R32; log 7). -/
def State.withFetchWord (s : State) (nbits w : Nat) : State :=
  { s with latch := some (packetOfNat nbits w), schedule := [] }

end Sys2Proof.Machine
end

