-- ==== Sys2Proof/Safety.lean ====
section
/-! DEFINITION. The terms statements use: legal commands, the Montgomery contract, the invariant, frames
(60_exceptions.md R184 to R187; 41_montgomery.md R115; 20_memory.md R46). -/

namespace Sys2Proof.Machine

/-! ### Legal commands: those the spec says complete -/

/-- The region is inside a MEM of `n` words; an empty one always is (60_exceptions.md R186). -/
abbrev Inside (n base len : Nat) : Prop := len = 0 ∨ base + len ≤ n

/-- The two regions have no word in common (60_exceptions.md R187). -/
abbrev Apart (base₁ len₁ base₂ len₂ : Nat) : Prop :=
  len₁ = 0 ∨ len₂ = 0 ∨ base₁ + len₁ ≤ base₂ ∨ base₂ + len₂ ≤ base₁

/-- An output and an input array of the same length: the same region, or no word in common (60_exceptions.md
R187(b)). -/
abbrev InPlaceOrApart (out inp len : Nat) : Prop := out = inp ∨ Apart out len inp len

/-- Every region of the command is inside MEM (30_encoding.md R72, 60_exceptions.md R186). -/
abbrev RegionsInside (n : Nat) (i : Instr) : Prop :=
  match i with
  | .ladd f => Inside n f.dst.toNat (limbCount f.hdr) ∧ Inside n f.a.toNat (limbCount f.hdr)
      ∧ Inside n f.b.toNat (limbCount f.hdr)
  | .lsub f => Inside n f.dst.toNat (limbCount f.hdr) ∧ Inside n f.a.toNat (limbCount f.hdr)
      ∧ Inside n f.b.toNat (limbCount f.hdr)
  | .lcmp f => Inside n f.a.toNat (limbCount f.hdr) ∧ Inside n f.b.toNat (limbCount f.hdr)
  | .montmul f => Inside n f.dst.toNat (limbCount f.hdr) ∧ Inside n f.a.toNat (limbCount f.hdr)
      ∧ Inside n f.b.toNat (limbCount f.hdr) ∧ Inside n f.modulus.toNat (limbCount f.hdr)
  | .bmontmul f => Inside n f.dst.toNat (f.count.toNat * limbCount f.hdr)
      ∧ Inside n f.a.toNat (f.count.toNat * limbCount f.hdr)
      ∧ Inside n f.b.toNat (f.count.toNat * limbCount f.hdr) ∧ Inside n f.modulus.toNat (limbCount f.hdr)
  | .nttbfly f => Inside n f.outEven.toNat (f.n.toNat * limbCount f.hdr)
      ∧ Inside n f.outOdd.toNat (f.n.toNat * limbCount f.hdr) ∧ Inside n f.inEven.toNat (f.n.toNat * limbCount f.hdr)
      ∧ Inside n f.inOdd.toNat (f.n.toNat * limbCount f.hdr) ∧ Inside n f.tw.toNat (f.n.toNat * limbCount f.hdr)
      ∧ Inside n f.modulus.toNat (limbCount f.hdr)
  | .bktacc f => Inside n f.acc.toNat (f.numBuckets.toNat * f.coordSize.toNat)
      ∧ Inside n f.idx.toNat f.numPoints.toNat ∧ Inside n f.pts.toNat (f.numPoints.toNat * f.coordSize.toNat)

/-- No forbidden overlap between the command's regions (60_exceptions.md R187). -/
abbrev RegionsCompatible (i : Instr) : Prop :=
  match i with
  | .ladd f => InPlaceOrApart f.dst.toNat f.a.toNat (limbCount f.hdr)
      ∧ InPlaceOrApart f.dst.toNat f.b.toNat (limbCount f.hdr)
  | .lsub f => InPlaceOrApart f.dst.toNat f.a.toNat (limbCount f.hdr)
      ∧ InPlaceOrApart f.dst.toNat f.b.toNat (limbCount f.hdr)
  | .lcmp _ => True
  | .montmul f => InPlaceOrApart f.dst.toNat f.a.toNat (limbCount f.hdr)
      ∧ InPlaceOrApart f.dst.toNat f.b.toNat (limbCount f.hdr)
      ∧ Apart f.dst.toNat (limbCount f.hdr) f.modulus.toNat (limbCount f.hdr)
  | .bmontmul f => InPlaceOrApart f.dst.toNat f.a.toNat (f.count.toNat * limbCount f.hdr)
      ∧ InPlaceOrApart f.dst.toNat f.b.toNat (f.count.toNat * limbCount f.hdr)
      ∧ Apart f.dst.toNat (f.count.toNat * limbCount f.hdr) f.modulus.toNat (limbCount f.hdr)
  | .nttbfly f =>
      Apart f.outEven.toNat (f.n.toNat * limbCount f.hdr) f.outOdd.toNat (f.n.toNat * limbCount f.hdr)
      ∧ InPlaceOrApart f.outEven.toNat f.inEven.toNat (f.n.toNat * limbCount f.hdr)
      ∧ InPlaceOrApart f.outEven.toNat f.inOdd.toNat (f.n.toNat * limbCount f.hdr)
      ∧ InPlaceOrApart f.outEven.toNat f.tw.toNat (f.n.toNat * limbCount f.hdr)
      ∧ InPlaceOrApart f.outOdd.toNat f.inEven.toNat (f.n.toNat * limbCount f.hdr)
      ∧ InPlaceOrApart f.outOdd.toNat f.inOdd.toNat (f.n.toNat * limbCount f.hdr)
      ∧ InPlaceOrApart f.outOdd.toNat f.tw.toNat (f.n.toNat * limbCount f.hdr)
      ∧ Apart f.outEven.toNat (f.n.toNat * limbCount f.hdr) f.modulus.toNat (limbCount f.hdr)
      ∧ Apart f.outOdd.toNat (f.n.toNat * limbCount f.hdr) f.modulus.toNat (limbCount f.hdr)
  | .bktacc f =>
      Apart f.acc.toNat (f.numBuckets.toNat * f.coordSize.toNat) f.idx.toNat f.numPoints.toNat
      ∧ Apart f.acc.toNat (f.numBuckets.toNat * f.coordSize.toNat) f.pts.toNat (f.numPoints.toNat * f.coordSize.toNat)

/-- A command that passes every check of 60_exceptions.md R183 on a MEM of `n` words. -/
abbrev Legal (n : Nat) (i : Instr) : Prop := i.WellFormed ∧ RegionsInside n i ∧ RegionsCompatible i

/-! ### The Montgomery contract -/

/-- Conditions (i), (ii) and (iv) of 41_montgomery.md R115 on a modulus of `L` limbs and its constant. -/
abbrev MontModulus (L : Nat) (m : Limbs) (mu : Word) : Prop :=
  m.length = L ∧ val m % 2 = 1 ∧ (val m * mu.toNat + 1) % 2 ^ 64 = 0 ∧ 2 * val m ≤ 2 ^ (64 * L)

/-- `a` is a reduced field element of `L` limbs (41_montgomery.md R115(iii)). -/
abbrev Reduced (L : Nat) (m a : Limbs) : Prop := a.length = L ∧ val a < val m

/-- `M(x)`, the Montgomery form of `x` (41_montgomery.md R119). -/
def montForm (L : Nat) (m : Limbs) (x : Nat) : Limbs := limbsOf L (x * 2 ^ (64 * L) % val m)

/-! ### Frames and the invariant -/

/-- Every byte outside the words `base .. base+len-1` reads as before. -/
abbrev KeepsBytesOutside (pre post : Memory) (base len : Nat) : Prop :=
  ∀ a, a < 8 * base ∨ 8 * (base + len) ≤ a → readByte post a = readByte pre a

/-- What no command changes: MEM_WORDS, the HOST's data, the reset counter of MEM. -/
abbrev KeepsHost (s t : State) : Prop :=
  t.cfg = s.cfg ∧ t.schedule = s.schedule ∧ t.hostLog = s.hostLog ∧ t.mem.era = s.mem.era

/-- Byte `a` belongs to the region. -/
abbrev InRegion (a : Nat) (x : Region) : Prop := 8 * x.base ≤ a ∧ a < 8 * (x.base + x.len)

/-- RSP as 10_state.md R23 and 60_exceptions.md R182 allow it. -/
abbrev RspLegal (w : Word) : Prop :=
  rspUpper w = 0 ∧ (rspStatus w).toNat ≤ 6 ∧ (rspStatus w ≠ 0 → rspCy w = false ∧ rspCmp w = 0)
    ∧ (rspCy w = true → rspCmp w = 0)

/-- The invariant: a legal MEM_WORDS (00_scope.md R12), MEM in its canonical form with no byte outside the address
space (10_state.md R22), a legal RSP. -/
abbrev State.Inv (s : State) : Prop :=
  s.cfg.wf ∧ s.mem.wf ∧ (∀ c ∈ s.mem.cells, c.1 < 8 * s.cfg.memWords) ∧ RspLegal s.rsp

/-! ### The fused transition of 10_state.md R31 -/

/-- The effect of one packet, accepted and performed: "one transition exec : State -> Packet -> State, total on
every packet" (10_state.md R31). -/
def packetEffect (s : State) (pkt : Packet) : State :=
  match engineTurn { s with latch := some pkt } with
  | .next t => t
  | .fault _ => s
  | .refused _ => s

end Sys2Proof.Machine
end

