-- ==== Sys2Proof/Certificates/Slice0/Obligations.lean ====
section
/-! DEFINITION. The statements for the provers. Rules are those of spec/. -/

open Sys2Proof Sys2Proof.Machine

/-! ### Encoding -/

/-- Encoding a command and decoding its packet gives the command back, with every field at every value
(30_encoding.md R60 to R70). -/
def Obligations.DecodeEncodeRoundTrip : Prop := ∀ i : Instr, decode (encode i) = .command i

/-- Every packet that decodes to a command is the encoding of that command: no bit of it is dropped
(30_encoding.md R60 to R70). -/
def Obligations.EncodeDecodeRoundTrip : Prop :=
  ∀ (p : Packet) (i : Instr), decode p = .command i → encode i = p

/-- OP alone selects the command, and exactly the seven opcodes are commands (30_encoding.md R62, R70, R71). -/
def Obligations.OpcodeAloneSelectsCommand : Prop :=
  ∀ p : Packet,
    (decode p = .reservedOpcode p.op ↔ p.op ∉ [0x01, 0x02, 0x03, 0x10, 0x11, 0x20, 0x30])
      ∧ (∀ i, decode p = .command i → opcodeOf (mnemonicOfInstr i) = p.op)
      ∧ (p.op ∈ [0x01, 0x02, 0x03, 0x10, 0x11, 0x20, 0x30] → ∃ i, decode p = .command i)

/-- The two worked encodings of 30_encoding.md R75, derived there. -/
def Obligations.WorkedEncodings : Prop :=
  encode (.montmul
      { hdr := { limbs := 4, window := 0, rsv0 := 0 }, dst := 0x18, a := 0x10, b := 0x04, modulus := 0x00,
        mu := 0xFFFFFFFEFFFFFFFF, mbz6 := 0, mbz7 := 0, mbz8 := 0, mbz9 := 0 })
    = ⟨0x0000000000000410, 0x18, 0x10, 0x04, 0x00, 0xFFFFFFFEFFFFFFFF, 0, 0, 0, 0⟩
  ∧ encode (.bktacc
      { hdr := { limbs := 0, window := 2, rsv0 := 0 }, acc := 0x80, idx := 0x90, pts := 0xA0, numPoints := 5,
        numBuckets := 3, coordSize := 1, mbz7 := 0, mbz8 := 0, mbz9 := 0 })
    = ⟨0x0000000000020030, 0x80, 0x90, 0xA0, 5, 3, 1, 0, 0, 0⟩

/-- Packets of 95_test_vectors.md section 9 decode to the commands they are printed beside, one for each opcode. -/
def Obligations.PrintedPacketsDecode : Prop :=
  decode ⟨0x401, 0x30, 0x28, 0x2C, 0, 0, 0, 0, 0, 0⟩ = .command (.ladd
      { hdr := { limbs := 4, window := 0, rsv0 := 0 }, dst := 0x30, a := 0x28, b := 0x2C,
        mbz4 := 0, mbz5 := 0, mbz6 := 0, mbz7 := 0, mbz8 := 0, mbz9 := 0 })
  ∧ decode ⟨0x402, 0x30, 0x30, 0x00, 0, 0, 0, 0, 0, 0⟩ = .command (.lsub
      { hdr := { limbs := 4, window := 0, rsv0 := 0 }, dst := 0x30, a := 0x30, b := 0x00,
        mbz4 := 0, mbz5 := 0, mbz6 := 0, mbz7 := 0, mbz8 := 0, mbz9 := 0 })
  ∧ decode ⟨0x403, 0, 0x30, 0x00, 0, 0, 0, 0, 0, 0⟩ = .command (.lcmp
      { hdr := { limbs := 4, window := 0, rsv0 := 0 }, mbz1 := 0, a := 0x30, b := 0x00,
        mbz4 := 0, mbz5 := 0, mbz6 := 0, mbz7 := 0, mbz8 := 0, mbz9 := 0 })
  ∧ decode ⟨0x410, 0x18, 0x10, 0x04, 0x00, 0xFFFFFFFEFFFFFFFF, 0, 0, 0, 0⟩ = .command (.montmul
      { hdr := { limbs := 4, window := 0, rsv0 := 0 }, dst := 0x18, a := 0x10, b := 0x04, modulus := 0x00,
        mu := 0xFFFFFFFEFFFFFFFF, mbz6 := 0, mbz7 := 0, mbz8 := 0, mbz9 := 0 })
  ∧ decode ⟨0x411, 0x70, 0x60, 0x68, 0x00, 0xFFFFFFFEFFFFFFFF, 2, 0, 0, 0⟩ = .command (.bmontmul
      { hdr := { limbs := 4, window := 0, rsv0 := 0 }, dst := 0x70, a := 0x60, b := 0x68, modulus := 0x00,
        mu := 0xFFFFFFFEFFFFFFFF, count := 2, mbz7 := 0, mbz8 := 0, mbz9 := 0 })
  ∧ decode ⟨0x420, 0x40, 0x48, 0x40, 0x48, 0x50, 0xDEADBEEF, 2, 0x00, 0xFFFFFFFEFFFFFFFF⟩ = .command (.nttbfly
      { hdr := { limbs := 4, window := 0, rsv0 := 0 }, outEven := 0x40, outOdd := 0x48, inEven := 0x40, inOdd := 0x48,
        tw := 0x50, twIm := 0xDEADBEEF, n := 2, modulus := 0x00, mu := 0xFFFFFFFEFFFFFFFF })
  ∧ decode ⟨0x20030, 0x80, 0x98, 0xA8, 3, 3, 1, 0, 0, 0⟩ = .command (.bktacc
      { hdr := { limbs := 0, window := 2, rsv0 := 0 }, acc := 0x80, idx := 0x98, pts := 0xA8, numPoints := 3,
        numBuckets := 3, coordSize := 1, mbz7 := 0, mbz8 := 0, mbz9 := 0 })

/-! ### The machine: steps, reset, invariant -/

/-- Every step keeps the invariant: a legal MEM_WORDS, MEM canonical and inside the address space, a legal RSP. -/
def Obligations.StepKeepsInvariant : Prop := ∀ s t : State, s.Inv → step s = .next t → t.Inv

/-- The reset state meets the invariant. -/
def Obligations.ResetMeetsInvariant : Prop := State.reset.Inv

/-- After reset BUSY = 0 and RSP = 0 (10_state.md R34). Every byte of MEM reads as a free value: the model's form of
"every word unspecified", log 2. -/
def Obligations.ResetState : Prop :=
  State.reset.busy = false ∧ State.reset.rsp = 0
    ∧ ∀ a, readByte State.reset.mem a = Config.powerOnByte State.reset.mem.era a

/-- The reset event, in any state: BUSY = 0, RSP = 0, MEM unspecified anew, whatever was in flight
(70_reset_and_hazards.md R210, R211). That the HOST's data stays is the model's choice, log 13. -/
def Obligations.ResetEventEffect : Prop :=
  ∀ (s : State) (rest : List Turn), s.schedule = .reset :: rest →
    ∃ t, step s = .next t ∧ t.busy = false ∧ t.rsp = 0 ∧ t.cfg = s.cfg ∧ t.schedule = rest ∧ t.hostLog = s.hostLog
      ∧ t.mem.era = s.mem.era + 1 ∧ ∀ a, readByte t.mem a = Config.powerOnByte t.mem.era a

/-- While BUSY = 1, the ENGINE's turn is `exec` of the decoded command; the schedule is consumed and nothing else is
added (10_state.md R33; the schedule is the model's, log 6). -/
def Obligations.StepRunsDecodedCommand : Prop :=
  ∀ (s : State) (pkt : Packet) (i : Instr), s.latch = some pkt → decode pkt = .command i →
    (s.schedule = [] → step s = exec i s)
      ∧ (∀ rest, s.schedule = .engine :: rest → step s = exec i { s with schedule := rest })

/-- While BUSY = 0 the ENGINE has no step: its turn changes nothing (10_state.md R33; the schedule is the model's,
log 6). -/
def Obligations.IdleEngineChangesNothing : Prop :=
  ∀ s : State, s.latch = none →
    (s.schedule = [] → step s = .next s)
      ∧ (∀ rest, s.schedule = .engine :: rest → step s = .next { s with schedule := rest })

/-- The ENGINE's step always exists and always clears BUSY (10_state.md R33, 60_exceptions.md R192). -/
def Obligations.EngineAlwaysEnds : Prop := ∀ s : State, ∃ t, engineTurn s = .next t ∧ t.busy = false

/-- The effect of a list of packets is the left fold of the fused transition (10_state.md R31). -/
def Obligations.PacketListIsLeftFold : Prop :=
  ∀ (ps : List Packet) (s : State) (rest : List Turn), s.latch = none →
    Host.Core.run Sys2Proof.core (2 * ps.length)
        { s with schedule := (ps.flatMap fun p => [.host (.issue p), .engine]) ++ rest }
      = .next { ps.foldl packetEffect s with schedule := rest }

/-- No step changes MEM_WORDS (00_scope.md R12). -/
def Obligations.StepKeepsMemWords : Prop := ∀ s t : State, step s = .next t → t.cfg = s.cfg

/-! ### The HOST's ports -/

/-- HostWrite(p, v), BUSY = 0 and p < MEM_WORDS: word `p` becomes `v` and nothing else changes (10_state.md R32). -/
def Obligations.HostWriteEffect : Prop :=
  ∀ (s : State) (p : Nat) (v : Word) (rest : List Turn), s.schedule = .host (.write p v) :: rest →
    s.latch = none → p < s.cfg.memWords →
    ∃ t, step s = .next t ∧ readWord t.mem p = v ∧ KeepsBytesOutside s.mem t.mem p 1
      ∧ t.cfg = s.cfg ∧ t.rsp = s.rsp ∧ t.latch = none ∧ t.schedule = rest ∧ t.hostLog = s.hostLog
      ∧ t.mem.era = s.mem.era

/-- HostRead(p), BUSY = 0 and p < MEM_WORDS, returns `MEM[p]` and has no effect (10_state.md R32). -/
def Obligations.HostReadEffect : Prop :=
  ∀ (s : State) (p : Nat) (rest : List Turn), s.schedule = .host (.read p) :: rest → s.latch = none →
    p < s.cfg.memWords →
    step s = .next { s with schedule := rest, hostLog := .word (readWord s.mem p) :: s.hostLog }

/-- HostIssue(pkt), BUSY = 0: the packet is latched, BUSY <- 1, RSP keeps its value (10_state.md R32). -/
def Obligations.HostIssueEffect : Prop :=
  ∀ (s : State) (pkt : Packet) (rest : List Turn), s.schedule = .host (.issue pkt) :: rest → s.latch = none →
    ∃ t, step s = .next t ∧ t = { s with schedule := rest, latch := some pkt } ∧ t.busy = true ∧ t.rsp = s.rsp

/-- A packet presented while BUSY = 1 is not accepted and has no effect (70_reset_and_hazards.md R215; log 6,
log 11). -/
def Obligations.IssueWhileBusyHasNoEffect : Prop :=
  ∀ (s : State) (pkt : Packet) (rest : List Turn), s.schedule = .host (.issue pkt) :: rest → s.busy = true →
    step s = .next { s with schedule := rest }

/-- HostReadRSP is always enabled, returns (RSP, BUSY) and has no effect (10_state.md R32). -/
def Obligations.HostReadRspEffect : Prop :=
  ∀ (s : State) (rest : List Turn), s.schedule = .host .readRsp :: rest →
    step s = .next { s with schedule := rest, hostLog := .response s.rsp s.busy :: s.hostLog }

/-- The model refuses a HOST access to MEM while BUSY = 1 (70_reset_and_hazards.md R216, log 10), and stops at one
outside MEM while BUSY = 0 (10_state.md R32, log 12). -/
def Obligations.HostMemAccessStops : Prop :=
  ∀ (s : State) (p : Nat) (v : Word) (rest : List Turn),
    (s.schedule = .host (.write p v) :: rest ∨ s.schedule = .host (.read p) :: rest) →
    (s.busy = true → step s = .refused .hostMemWhileBusy)
      ∧ (s.busy = false → s.cfg.memWords ≤ p → step s = .fault (.noSuchWord p))

/-- No HOST step changes RSP, and none changes the packet of a command in flight (10_state.md R23, R32). -/
def Obligations.HostStepsKeepRspAndLatch : Prop :=
  ∀ (a : HostStep) (s t : State), hostTurn a s = .next t →
    t.rsp = s.rsp ∧ t.cfg = s.cfg ∧ (s.busy = true → t.latch = s.latch ∧ t.mem = s.mem)

/-! ### Validity checks and rejections -/

/-- Every command answers a next state with BUSY = 0, and its STATUS is OK exactly if it is legal
(60_exceptions.md R180, R183). -/
def Obligations.StatusOkIffLegal : Prop :=
  ∀ (i : Instr) (s : State),
    ∃ t, exec i s = .next t ∧ t.busy = false ∧ (rspStatus t.rsp = 0 ↔ Legal s.cfg.memWords i)

/-- The fixed order of the checks: the code of the first that fails, OK if none does (60_exceptions.md R182 to
R187). -/
def Obligations.ChecksInFixedOrder : Prop :=
  ∀ (s : State) (pkt : Packet), s.latch = some pkt →
    ∃ t, engineTurn s = .next t
      ∧ (∀ op, decode pkt = .reservedOpcode op → rspStatus t.rsp = 0x01)
      ∧ ∀ i, decode pkt = .command i →
        (¬ i.ReservedZero → rspStatus t.rsp = 0x02)
        ∧ (i.ReservedZero → ¬ i.ShapeLegal → rspStatus t.rsp = if mnemonicOfInstr i = .bktacc then 0x04 else 0x03)
        ∧ (i.WellFormed → ¬ RegionsInside s.cfg.memWords i → rspStatus t.rsp = 0x05)
        ∧ (i.WellFormed → RegionsInside s.cfg.memWords i → ¬ RegionsCompatible i → rspStatus t.rsp = 0x06)
        ∧ (Legal s.cfg.memWords i → rspStatus t.rsp = 0x00)

/-- A rejection: RSP is the code and nothing else of it set, MEM unchanged and not read, BUSY <- 0, the latch dropped.
The code is the same for every content of MEM (60_exceptions.md R181). -/
def Obligations.RejectionLeavesOnlyStatus : Prop :=
  ∀ (n : Nat) (pkt : Packet), (∀ i, decode pkt = .command i → ¬ Legal n i) →
    ∃ code ∈ [(0x01 : Field8), 0x02, 0x03, 0x04, 0x05, 0x06], ∀ s : State, s.cfg.memWords = n → s.latch = some pkt →
      engineTurn s = .next { s with rsp := code.setWidth 64, latch := none }

/-- The ENGINE writes no byte outside the output regions of the command, which a rejected command leaves alone too
(20_memory.md R46). -/
def Obligations.CommandWritesOnlyItsRegions : Prop :=
  ∀ (i : Instr) (s t : State), exec i s = .next t →
    (∀ a, (∀ x ∈ (regionsOf i).out ++ (regionsOf i).inout, ¬ InRegion a x) → readByte t.mem a = readByte s.mem a)
      ∧ (¬ Legal s.cfg.memWords i → t.mem = s.mem) ∧ KeepsHost s t

/-- RSP and the words a legal command writes depend on the words of its input regions alone: two memories that agree
on them give the same (20_memory.md R46). -/
def Obligations.CommandReadsOnlyItsRegions : Prop :=
  ∀ (i : Instr) (s s' : State), s.cfg = s'.cfg → Legal s.cfg.memWords i →
    (∀ x ∈ (regionsOf i).inout ++ (regionsOf i).inArray ++ (regionsOf i).inFixed, ∀ a, InRegion a x →
      readByte s.mem a = readByte s'.mem a) →
    ∃ t t', exec i s = .next t ∧ exec i s' = .next t' ∧ t.rsp = t'.rsp
      ∧ ∀ x ∈ (regionsOf i).out ++ (regionsOf i).inout, ∀ a, InRegion a x → readByte t.mem a = readByte t'.mem a

/-- A command's effect depends on its packet, MEM_WORDS and MEM alone: RSP, the latch and the HOST's data are not read
(10_state.md R23). -/
def Obligations.CommandIgnoresRspAndHost : Prop :=
  ∀ (i : Instr) (s s' t : State), s.cfg = s'.cfg → s.mem = s'.mem → exec i s = .next t →
    exec i s' = .next { s' with mem := t.mem, rsp := t.rsp, latch := none }

/-- The fields of RSP after a command: CY only from LADD and LSUB, CMP only from LCMP, both clear after a rejection,
nothing above them (10_state.md R23, R27). -/
def Obligations.RspFieldsAfterCommand : Prop :=
  ∀ (i : Instr) (s t : State), exec i s = .next t →
    rspUpper t.rsp = 0
      ∧ (mnemonicOfInstr i ≠ .ladd → mnemonicOfInstr i ≠ .lsub → rspCy t.rsp = false)
      ∧ (mnemonicOfInstr i ≠ .lcmp → rspCmp t.rsp = 0)
      ∧ (mnemonicOfInstr i = .lcmp → rspStatus t.rsp = 0 → rspCmp t.rsp ≠ 0)
      ∧ (rspStatus t.rsp ≠ 0 → rspCy t.rsp = false ∧ rspCmp t.rsp = 0)

/-- Zero counts make a command a no-op with STATUS OK: MEM is the same data (42_batch_montmul.md R131,
43_ntt_butterfly.md R145, 44_msm_bucket.md R162, D32). -/
def Obligations.ZeroCountsChangeNothing : Prop :=
  (∀ (f : FormatBM) (s : State), Legal s.cfg.memWords (.bmontmul f) → (f.count = 0 ∨ f.hdr.limbs = 0) →
      exec (.bmontmul f) s = .next { s with rsp := 0, latch := none })
    ∧ (∀ (f : FormatNB) (s : State), Legal s.cfg.memWords (.nttbfly f) → f.n = 0 →
      exec (.nttbfly f) s = .next { s with rsp := 0, latch := none })
    ∧ (∀ (f : FormatBA) (s : State), Legal s.cfg.memWords (.bktacc f) →
      (f.numPoints = 0 ∨ f.numBuckets = 0 ∨ f.coordSize = 0 ∨ f.hdr.window = 0) →
      exec (.bktacc f) s = .next { s with rsp := 0, latch := none })

/-! ### Limb arithmetic -/

/-- AddWithCarry and SubWithBorrow are arbitrary-precision addition and subtraction, at every length
(40_limb_arithmetic.md R99). -/
def Obligations.CarryChainTotality : Prop :=
  ∀ a b : Limbs, a.length = b.length →
    ((addWithCarry a b).1 = limbsOf a.length (val a + val b)
        ∧ (addWithCarry a b).2.toNat = (val a + val b) / 2 ^ (64 * a.length))
      ∧ (subWithBorrow a b).1
          = limbsOf a.length (((val a : Int) - (val b : Int)) % ((2 ^ (64 * a.length) : Nat) : Int)).toNat
      ∧ ((subWithBorrow a b).2 = true ↔ val a < val b)

/-- Compare decides the order of the values, and equal means the same sequence (40_limb_arithmetic.md R93, derived
there). -/
def Obligations.CompareDecidesOrder : Prop :=
  ∀ a b : Limbs, a.length = b.length →
    (compareLimbs a b = .less ↔ val a < val b) ∧ (compareLimbs a b = .equal ↔ val a = val b)
      ∧ (compareLimbs a b = .equal ↔ a = b) ∧ (compareLimbs a b = .greater ↔ val b < val a)

/-- LADD: DST becomes the L-limb sum, CY the carry out, every other byte of MEM stays (40_limb_arithmetic.md R95). -/
def Obligations.LaddAddsLimbs : Prop :=
  ∀ (f : FormatLB) (s : State), Legal s.cfg.memWords (.ladd f) →
    let L := limbCount f.hdr
    let x := val (readWords s.mem f.a.toNat L)
    let y := val (readWords s.mem f.b.toNat L)
    ∃ t, exec (.ladd f) s = .next t
      ∧ readWords t.mem f.dst.toNat L = limbsOf L (x + y)
      ∧ t.rsp = (if 2 ^ (64 * L) ≤ x + y then 0x100 else 0x000)
      ∧ t.latch = none ∧ KeepsHost s t ∧ KeepsBytesOutside s.mem t.mem f.dst.toNat L

/-- LSUB: DST becomes the L-limb difference, CY the borrow out, every other byte of MEM stays (40_limb_arithmetic.md
R96). -/
def Obligations.LsubSubtractsLimbs : Prop :=
  ∀ (f : FormatLB) (s : State), Legal s.cfg.memWords (.lsub f) →
    let L := limbCount f.hdr
    let x := val (readWords s.mem f.a.toNat L)
    let y := val (readWords s.mem f.b.toNat L)
    ∃ t, exec (.lsub f) s = .next t
      ∧ readWords t.mem f.dst.toNat L = limbsOf L (2 ^ (64 * L) + x - y)
      ∧ t.rsp = (if x < y then 0x100 else 0x000)
      ∧ t.latch = none ∧ KeepsHost s t ∧ KeepsBytesOutside s.mem t.mem f.dst.toNat L

/-- LCMP: CMP is 1, 2 or 3 as A is less, equal or greater; nothing else changes, MEM not at all
(40_limb_arithmetic.md R97). -/
def Obligations.LcmpCompares : Prop :=
  ∀ (f : FormatLC) (s : State), Legal s.cfg.memWords (.lcmp f) →
    let L := limbCount f.hdr
    let x := val (readWords s.mem f.a.toNat L)
    let y := val (readWords s.mem f.b.toNat L)
    exec (.lcmp f) s
      = .next { s with rsp := (if x < y then 0x200 else if x = y then 0x400 else 0x600), latch := none }

/-! ### The Montgomery engine -/

/-- SchoolbookMul is the exact product in 2L limbs (41_montgomery.md R110). -/
def Obligations.SchoolbookMulIsExact : Prop :=
  ∀ a b : Limbs, a.length = b.length → schoolbookMul a b = limbsOf (2 * a.length) (val a * val b)

/-- One iteration of MontReduce on the limbs `t[i..2L-1]` adds `q * m` and discards a carry out of limb 2L-1
(41_montgomery.md R112, R113). -/
def Obligations.MontIterationDropsTopCarry : Prop :=
  ∀ (m t : Limbs) (mu : Word), m.length ≤ t.length →
    (montIteration m mu t).length = t.length
      ∧ val (montIteration m mu t) = (val t + (t.headD 0 * mu).toNat * val m) % 2 ^ (64 * t.length)

/-- The contract: under (i) to (iv), with (iii) as stated or weakened, MontMul is `a b R^-1 mod m`
(41_montgomery.md R115, its condition (iv) and what rests on it derived there). -/
def Obligations.MontgomeryContract : Prop :=
  ∀ (L : Nat) (m a b : Limbs) (mu : Word), MontModulus L m mu → a.length = L → b.length = L →
    (val a < val m ∧ val b < val m ∨ val a * val b < val m * 2 ^ (64 * L)) →
    val (montMul a b m mu) < val m
      ∧ val (montMul a b m mu) * 2 ^ (64 * L) % val m = val a * val b % val m
      ∧ ∀ Rinv, 2 ^ (64 * L) * Rinv % val m = 1 % val m → val (montMul a b m mu) = val a * val b * Rinv % val m

/-- With a wrong `mu`, or an even modulus, the result is still below the modulus (41_montgomery.md R117; log 8). -/
def Obligations.WrongMuStaysReduced : Prop :=
  ∀ (L : Nat) (m a b : Limbs) (mu : Word), m.length = L → 2 * val m ≤ 2 ^ (64 * L) → Reduced L m a → Reduced L m b →
    (montMul a b m mu).length = L ∧ val (montMul a b m mu) < val m

/-- Round trip, identity and reduction (41_montgomery.md R119, derived there from R115). -/
def Obligations.MontgomeryRoundTrip : Prop :=
  ∀ (L : Nat) (m : Limbs) (mu : Word), MontModulus L m mu →
    (∀ x y, montMul (montForm L m x) (montForm L m y) m mu = montForm L m (x * y % val m))
      ∧ (∀ z, z < val m → montMul (montForm L m z) (limbsOf L 1) m mu = limbsOf L z)
      ∧ (∀ a b, Reduced L m a → Reduced L m b → val (montMul a b m mu) < val m)
      ∧ montMul (limbsOf L (2 ^ (64 * L) % val m)) (limbsOf L (2 ^ (64 * L) % val m)) m mu
          = limbsOf L (2 ^ (64 * L) % val m)

/-- MONTMUL: DST becomes MontMul of the operands, whatever they are, RSP = 0, every other byte of MEM stays
(41_montgomery.md R116, R118; log 8). -/
def Obligations.MontmulWritesMontMul : Prop :=
  ∀ (f : FormatMM) (s : State), Legal s.cfg.memWords (.montmul f) →
    let L := limbCount f.hdr
    ∃ t, exec (.montmul f) s = .next t
      ∧ readWords t.mem f.dst.toNat L
          = montMul (readWords s.mem f.a.toNat L) (readWords s.mem f.b.toNat L) (readWords s.mem f.modulus.toNat L) f.mu
      ∧ t.rsp = 0 ∧ t.latch = none ∧ KeepsHost s t ∧ KeepsBytesOutside s.mem t.mem f.dst.toNat L

/-- MONTMUL on reduced operands, a modulus and a `mu` within the contract: DST is `a b R^-1 mod m` in MEM
(41_montgomery.md R115, R116). -/
def Obligations.MontmulFieldProduct : Prop :=
  ∀ (f : FormatMM) (s : State), Legal s.cfg.memWords (.montmul f) →
    let L := limbCount f.hdr
    let m := readWords s.mem f.modulus.toNat L
    let a := readWords s.mem f.a.toNat L
    let b := readWords s.mem f.b.toNat L
    MontModulus L m f.mu → val a < val m → val b < val m →
    ∃ t, exec (.montmul f) s = .next t
      ∧ val (readWords t.mem f.dst.toNat L) < val m
      ∧ val (readWords t.mem f.dst.toNat L) * 2 ^ (64 * L) % val m = val a * val b % val m
      ∧ readWords t.mem f.modulus.toNat L = m

/-! ### The batch multiplier -/

/-- Batch consistency: for L = 4 or 6, output `i` is MontMul of input pair `i`; no other byte of MEM changes
(42_batch_montmul.md R133, derived there). -/
def Obligations.BatchConsistency : Prop :=
  ∀ (f : FormatBM) (s : State), Legal s.cfg.memWords (.bmontmul f) → f.hdr.supportedLimbs →
    let L := limbCount f.hdr
    ∃ t, exec (.bmontmul f) s = .next t
      ∧ (∀ i < f.count.toNat, readElem t.mem f.dst.toNat L i
          = montMul (readElem s.mem f.a.toNat L i) (readElem s.mem f.b.toNat L i)
              (readWords s.mem f.modulus.toNat L) f.mu)
      ∧ t.rsp = 0 ∧ t.latch = none ∧ KeepsHost s t
      ∧ KeepsBytesOutside s.mem t.mem f.dst.toNat (f.count.toNat * L)

/-- An unsupported limb count zero-fills the COUNT x L words of DST with STATUS = OK (42_batch_montmul.md R132). -/
def Obligations.BatchZeroFill : Prop :=
  ∀ (f : FormatBM) (s : State), Legal s.cfg.memWords (.bmontmul f) → ¬ f.hdr.supportedLimbs →
    let n := f.count.toNat * limbCount f.hdr
    ∃ t, exec (.bmontmul f) s = .next t
      ∧ (∀ k < n, readWord t.mem (f.dst.toNat + k) = 0)
      ∧ t.rsp = 0 ∧ t.latch = none ∧ KeepsHost s t ∧ KeepsBytesOutside s.mem t.mem f.dst.toNat n

/-! ### The butterfly -/

/-- ModAdd is addition modulo `m` on reduced operands, for every modulus, and on all operands the value its pseudocode
gives (43_ntt_butterfly.md R141, the first derived there). -/
def Obligations.ModAddIsFieldAddition : Prop :=
  ∀ a b m : Limbs, a.length = m.length → b.length = m.length →
    let R := 2 ^ (64 * m.length)
    let s := (val a + val b) % R
    (modAdd a b m).length = m.length
      ∧ (val a < val m → val b < val m → val (modAdd a b m) = (val a + val b) % val m)
      ∧ val (modAdd a b m) = if R ≤ val a + val b ∨ val m ≤ s then (R + s - val m) % R else s

/-- ModSub is subtraction modulo `m` on reduced operands, for every modulus, and on all operands the value its
pseudocode gives (43_ntt_butterfly.md R142, the first derived there). -/
def Obligations.ModSubIsFieldSubtraction : Prop :=
  ∀ a b m : Limbs, a.length = m.length → b.length = m.length →
    let R := 2 ^ (64 * m.length)
    (modSub a b m).length = m.length
      ∧ (val a < val m → val b < val m →
          (val (modSub a b m) : Int) = ((val a : Int) - (val b : Int)) % (val m : Int))
      ∧ val (modSub a b m) = if val a < val b then (R + val a - val b + val m) % R else val a - val b

/-- Bfly, and the butterfly of Montgomery forms: `M(x + z y)` and `M(x - z y)` (43_ntt_butterfly.md R143, the
latter derived there). -/
def Obligations.ButterflyFieldMeaning : Prop :=
  ∀ (L : Nat) (m : Limbs) (mu : Word),
    (∀ e o tw, bfly e o tw m mu = (modAdd e (montMul tw o m mu) m, modSub e (montMul tw o m mu) m))
      ∧ (MontModulus L m mu → ∀ x y z : Nat,
          montMul (montForm L m z) (montForm L m y) m mu = montForm L m (z * y % val m)
            ∧ bfly (montForm L m x) (montForm L m y) (montForm L m z) m mu
              = (montForm L m ((x + z * y) % val m),
                 montForm L m (((x : Int) - (z * y : Nat)) % (val m : Int)).toNat))

/-- Butterfly self-consistency, as equalities of field elements (43_ntt_butterfly.md R148, derived there). -/
def Obligations.ButterflySelfConsistency : Prop :=
  ∀ (L : Nat) (m e o tw : Limbs) (mu : Word), MontModulus L m mu → Reduced L m e → Reduced L m o → Reduced L m tw →
    modAdd (bfly e o tw m mu).1 (bfly e o tw m mu).2 m = modAdd e e m
      ∧ modSub (bfly e o tw m mu).1 (bfly e o tw m mu).2 m = modAdd (montMul tw o m mu) (montMul tw o m mu) m

/-- NTTBFLY: element `i` of the outputs is the butterfly of element `i` of the inputs as they were; RSP = 0; no other
byte of MEM changes (43_ntt_butterfly.md R145). -/
def Obligations.NttbflyWritesButterflies : Prop :=
  ∀ (f : FormatNB) (s : State), Legal s.cfg.memWords (.nttbfly f) →
    let L := limbCount f.hdr
    let m := readWords s.mem f.modulus.toNat L
    ∃ t, exec (.nttbfly f) s = .next t
      ∧ (∀ i < f.n.toNat,
          let e := readElem s.mem f.inEven.toNat L i
          let p := montMul (readElem s.mem f.tw.toNat L i) (readElem s.mem f.inOdd.toNat L i) m f.mu
          readElem t.mem f.outEven.toNat L i = modAdd e p m ∧ readElem t.mem f.outOdd.toNat L i = modSub e p m)
      ∧ t.rsp = 0 ∧ t.latch = none ∧ KeepsHost s t
      ∧ ∀ a, ¬ InRegion a ⟨f.outEven.toNat, f.n.toNat * L⟩ → ¬ InRegion a ⟨f.outOdd.toNat, f.n.toNat * L⟩ →
          readByte t.mem a = readByte s.mem a

/-- Two NTTBFLY packets that differ only in PKT[6] have the same effect (43_ntt_butterfly.md R146). -/
def Obligations.NttbflyIgnoresSecondTwiddle : Prop :=
  ∀ (p : Packet) (x : Word) (s : State), p.op = 0x20 →
    engineTurn { s with latch := some { p with w6 := x } } = engineTurn { s with latch := some p }
      ∧ ∃ t, engineTurn { s with latch := some p } = .next t

/-! ### The bucket accumulator -/

/-- The digit is the index word masked to its low W bits; W = 0 gives digit 0 and accumulates nothing, W = 64 the whole
word (44_msm_bucket.md R161). -/
def Obligations.DigitIsLowWindow : Prop :=
  ∀ (f : FormatBA) (m : Memory) (k : Nat), windowBits f.hdr ≤ 64 →
    digitOf f m k = (readWord m (f.idx.toNat + k)).toNat &&& (2 ^ windowBits f.hdr - 1)
      ∧ digitOf f m k = (readWord m (f.idx.toNat + k)).toNat % 2 ^ windowBits f.hdr
      ∧ (windowBits f.hdr = 0 → digitOf f m k = 0
          ∧ ∀ s : State, Legal s.cfg.memWords (.bktacc f) → ∃ t, exec (.bktacc f) s = .next t ∧ t.mem = s.mem)
      ∧ (windowBits f.hdr = 64 → digitOf f m k = (readWord m (f.idx.toNat + k)).toNat)

/-- BKTACC: every slot of every bucket gains the sum, modulo 2^64, of that slot of the points with its digit; no other
byte of MEM changes (44_msm_bucket.md R163, derived there; log 9). -/
def Obligations.BucketSums : Prop :=
  ∀ (f : FormatBA) (s : State), Legal s.cfg.memWords (.bktacc f) →
    let cs := f.coordSize.toNat
    ∃ t, exec (.bktacc f) s = .next t
      ∧ (∀ d c, 1 ≤ d → d ≤ f.numBuckets.toNat → c < cs →
          (readWord t.mem (bucketSlot f.acc.toNat cs d c)).toNat
            = ((readWord s.mem (bucketSlot f.acc.toNat cs d c)).toNat
                + ∑ k ∈ (Finset.range f.numPoints.toNat).filter (fun k => digitOf f s.mem k = d),
                    (readWord s.mem (pointSlot f.pts.toNat cs k c)).toNat) % 2 ^ 64)
      ∧ t.rsp = 0 ∧ t.latch = none ∧ KeepsHost s t
      ∧ KeepsBytesOutside s.mem t.mem f.acc.toNat (f.numBuckets.toNat * cs)

/-- Bucket conservation from an all-zero ACC, and the source's wording where NUM_BUCKETS >= 2^W - 1
(44_msm_bucket.md R169, derived there). -/
def Obligations.BucketConservation : Prop :=
  ∀ (f : FormatBA) (s t : State), Legal s.cfg.memWords (.bktacc f) →
    (∀ k < f.numBuckets.toNat * f.coordSize.toNat, readWord s.mem (f.acc.toNat + k) = 0) →
    exec (.bktacc f) s = .next t →
    ∀ c < f.coordSize.toNat,
      (∑ d ∈ Finset.Icc 1 f.numBuckets.toNat,
          (readWord t.mem (bucketSlot f.acc.toNat f.coordSize.toNat d c)).toNat) % 2 ^ 64
        = (∑ k ∈ (Finset.range f.numPoints.toNat).filter
              (fun k => 1 ≤ digitOf f s.mem k ∧ digitOf f s.mem k ≤ f.numBuckets.toNat),
            (readWord s.mem (pointSlot f.pts.toNat f.coordSize.toNat k c)).toNat) % 2 ^ 64
      ∧ (2 ^ windowBits f.hdr - 1 ≤ f.numBuckets.toNat →
          (∑ d ∈ Finset.Icc 1 f.numBuckets.toNat,
              (readWord t.mem (bucketSlot f.acc.toNat f.coordSize.toNat d c)).toNat) % 2 ^ 64
            = (∑ k ∈ (Finset.range f.numPoints.toNat).filter (fun k => digitOf f s.mem k ≠ 0),
                (readWord s.mem (pointSlot f.pts.toNat f.coordSize.toNat k c)).toNat) % 2 ^ 64)
end

