-- ==== Sys2Proof/Laws/State.lean ====
section
/-! SUPPORT. One lemma per field per update of the state. -/

namespace Sys2Proof.Machine

variable (s : State) (m : Memory) (cy : Bool) (cmp : Option Comparison) (st : Status)

@[simp] theorem busy_eq : s.busy = s.latch.isSome := rfl

@[simp] theorem complete_cfg : (complete m cy cmp s).cfg = s.cfg := rfl
@[simp] theorem complete_mem : (complete m cy cmp s).mem = m := rfl
@[simp] theorem complete_rsp : (complete m cy cmp s).rsp = rspWord .ok cy cmp := rfl
@[simp] theorem complete_latch : (complete m cy cmp s).latch = none := rfl
@[simp] theorem complete_schedule : (complete m cy cmp s).schedule = s.schedule := rfl
@[simp] theorem complete_hostLog : (complete m cy cmp s).hostLog = s.hostLog := rfl

@[simp] theorem reject_cfg : (reject st s).cfg = s.cfg := rfl
@[simp] theorem reject_mem : (reject st s).mem = s.mem := rfl
@[simp] theorem reject_rsp : (reject st s).rsp = rspWord st false none := rfl
@[simp] theorem reject_latch : (reject st s).latch = none := rfl
@[simp] theorem reject_schedule : (reject st s).schedule = s.schedule := rfl
@[simp] theorem reject_hostLog : (reject st s).hostLog = s.hostLog := rfl

@[simp] theorem resetEvent_cfg : (resetEvent s).cfg = s.cfg := rfl
@[simp] theorem resetEvent_cells : (resetEvent s).mem.cells = [] := rfl
@[simp] theorem resetEvent_era : (resetEvent s).mem.era = s.mem.era + 1 := rfl
@[simp] theorem resetEvent_rsp : (resetEvent s).rsp = 0 := rfl
@[simp] theorem resetEvent_latch : (resetEvent s).latch = none := rfl
@[simp] theorem resetEvent_schedule : (resetEvent s).schedule = s.schedule := rfl
@[simp] theorem resetEvent_hostLog : (resetEvent s).hostLog = s.hostLog := rfl

@[simp] theorem writeByte_era (a : Nat) (b : Byte) : (writeByte m a b).era = m.era := rfl
@[simp] theorem writeWord_era (p : Nat) (v : Word) : (writeWord m p v).era = m.era := rfl

end Sys2Proof.Machine
end

