-- ==== Sys2Proof/Laws/Memory.lean ====
section
/-! SUPPORT. What the operations on MEM do: a read after a write, the frame, the canonical form. -/

namespace Sys2Proof.Machine

/-! ### Cells -/

theorem cellAt_setCell (a c : Nat) (b : Byte) (cells : List Host.Cell) :
    cellAt c (setCell a b cells) = if c = a then some b else cellAt c cells := by
  induction cells with
  | nil => simp [setCell, cellAt, eq_comm]
  | cons x rest ih =>
    unfold setCell
    split
    · simp only [cellAt, eq_comm]
    · split
      · next h => subst h; simp only [cellAt, eq_comm (a := x.1)]; split <;> rfl
      · next h1 h2 =>
        simp only [cellAt, ih]
        by_cases hx : x.1 = c
        · subst hx; simp [eq_comm, h2]
        · simp [hx]

theorem mem_setCell {a : Nat} {b : Byte} {cells : List Host.Cell} {x : Host.Cell}
    (h : x ∈ setCell a b cells) : x = (a, b) ∨ x ∈ cells := by
  induction cells with
  | nil => simpa [setCell] using h
  | cons y rest ih =>
    unfold setCell at h
    split at h
    · simpa using h
    · split at h
      · simp only [List.mem_cons] at h ⊢; tauto
      · simp only [List.mem_cons] at h ⊢
        rcases h with h | h
        · tauto
        · rcases ih h with h | h <;> tauto

theorem setCell_pairwise (a : Nat) (b : Byte) {cells : List Host.Cell}
    (h : cells.Pairwise fun x y => x.1 < y.1) : (setCell a b cells).Pairwise fun x y => x.1 < y.1 := by
  induction cells with
  | nil => simp [setCell]
  | cons y rest ih =>
    have hy := List.pairwise_cons.1 h
    unfold setCell
    split
    · next hlt =>
      refine List.pairwise_cons.2 ⟨fun z hz => ?_, h⟩
      rcases List.mem_cons.1 hz with rfl | hz
      · exact hlt
      · exact lt_trans hlt (hy.1 z hz)
    · split
      · next heq => subst heq; exact List.pairwise_cons.2 ⟨fun z hz => hy.1 z hz, hy.2⟩
      · next hlt hne =>
        refine List.pairwise_cons.2 ⟨fun z hz => ?_, ih hy.2⟩
        rcases mem_setCell hz with rfl | hz
        · show y.1 < a; omega
        · exact hy.1 z hz

/-! ### Bytes -/

theorem readByte_writeByte (m : Memory) (a c : Nat) (b : Byte) :
    readByte (writeByte m a b) c = if c = a then b else readByte m c := by
  by_cases h : c = a <;> simp [readByte, writeByte, cellAt_setCell, h]

theorem writeByte_wf {m : Memory} (h : m.wf) (a : Nat) (b : Byte) : (writeByte m a b).wf :=
  setCell_pairwise a b h

/-- Every listed byte is below `n`. -/
abbrev Memory.Below (n : Nat) (m : Memory) : Prop := ∀ c ∈ m.cells, c.1 < n

theorem writeByte_below {n a : Nat} {m : Memory} (h : m.Below n) (ha : a < n) (b : Byte) :
    (writeByte m a b).Below n := by
  intro c hc
  rcases mem_setCell hc with rfl | hc
  · exact ha
  · exact h c hc

/-! ### Words -/

/-- Writing word `p` changes its eight bytes and no other. -/
theorem readByte_writeWord (m : Memory) (p c : Nat) (v : Word) :
    readByte (writeWord m p v) c = if c / 8 = p then byteOf v (c % 8) else readByte m c := by
  simp only [writeWord, readByte_writeByte]
  by_cases h : c / 8 = p
  · have hc : c = 8 * p + c % 8 := by omega
    have h8 : c % 8 < 8 := Nat.mod_lt _ (by decide)
    generalize c % 8 = k at *
    subst hc
    rw [if_pos h]
    interval_cases k <;> simp
  · split_ifs <;> first | rfl | omega

theorem writeWord_wf {m : Memory} (h : m.wf) (p : Nat) (v : Word) : (writeWord m p v).wf := by
  simp only [writeWord]; repeat apply writeByte_wf
  exact h

theorem writeWord_below {n p : Nat} {m : Memory} (h : m.Below (8 * n)) (hp : p < n) (v : Word) :
    (writeWord m p v).Below (8 * n) := by
  simp only [writeWord]
  repeat (first | exact h | refine writeByte_below ?_ (by omega) _)

/-- The eight bytes of a word, put together again, are the word (20_memory.md R42). -/
theorem bytes_append (v : Word) :
    byteOf v 7 ++ byteOf v 6 ++ byteOf v 5 ++ byteOf v 4 ++ byteOf v 3 ++ byteOf v 2 ++ byteOf v 1 ++ byteOf v 0
      = v := by
  apply BitVec.eq_of_getLsbD_eq
  intro i hi
  simp only [byteOf, BitVec.getLsbD_append, BitVec.getLsbD_extractLsb']
  interval_cases i <;> simp

theorem readWord_congr {m m' : Memory} {p : Nat} (h : ∀ k < 8, readByte m (8 * p + k) = readByte m' (8 * p + k)) :
    readWord m p = readWord m' p := by
  have h0 := h 0 (by decide)
  simp only [readWord, h 7 (by decide), h 6 (by decide), h 5 (by decide), h 4 (by decide), h 3 (by decide),
    h 2 (by decide), h 1 (by decide)]
  rw [show readByte m (8 * p) = readByte m' (8 * p) from h0]

/-- A read after a write (00_scope.md R15). -/
theorem readWord_writeWord (m : Memory) (p q : Nat) (v : Word) :
    readWord (writeWord m p v) q = if q = p then v else readWord m q := by
  by_cases h : q = p
  · subst h
    rw [if_pos rfl]
    refine Eq.trans ?_ (bytes_append v)
    simp only [readWord, readByte_writeWord]
    have e : ∀ k, k < 8 → (8 * q + k) / 8 = q := fun k hk => by omega
    have r : ∀ k, k < 8 → (8 * q + k) % 8 = k := fun k hk => by omega
    simp only [e 7 (by decide), e 6 (by decide), e 5 (by decide), e 4 (by decide), e 3 (by decide),
      e 2 (by decide), e 1 (by decide), r 7 (by decide), r 6 (by decide), r 5 (by decide), r 4 (by decide),
      r 3 (by decide), r 2 (by decide), r 1 (by decide), Nat.mul_div_cancel_left q (by decide : 0 < 8),
      Nat.mul_mod_right, if_true]
  · rw [if_neg h]
    refine readWord_congr fun k hk => ?_
    rw [readByte_writeWord, if_neg (by omega)]

/-! ### Runs of words -/

@[simp] theorem readWords_length (m : Memory) (p n : Nat) : (readWords m p n).length = n := by
  induction n generalizing p with
  | zero => rfl
  | succ n ih => simp [readWords, ih]

theorem readWords_getElem (m : Memory) (p n k : Nat) (h : k < (readWords m p n).length) :
    (readWords m p n)[k] = readWord m (p + k) := by
  induction n generalizing p k with
  | zero => simp [readWords] at h
  | succ n ih =>
    cases k with
    | zero => simp [readWords]
    | succ k =>
      simp only [readWords, List.getElem_cons_succ]
      rw [ih (p + 1) k (by simpa [readWords] using h)]
      congr 1; omega

theorem readWords_congr {m m' : Memory} {p n : Nat} (h : ∀ k < n, readWord m (p + k) = readWord m' (p + k)) :
    readWords m p n = readWords m' p n := by
  induction n generalizing p with
  | zero => rfl
  | succ n ih =>
    simp only [readWords]
    rw [show readWord m p = readWord m' p from h 0 (by omega),
      ih fun k hk => by have := h (k + 1) (by omega); rwa [← Nat.add_assoc, Nat.add_right_comm] at this]

theorem readWords_append (m : Memory) (p n k : Nat) :
    readWords m p (n + k) = readWords m p n ++ readWords m (p + n) k := by
  induction n generalizing p with
  | zero => simp [readWords]
  | succ n ih =>
    rw [Nat.add_right_comm]
    simp only [readWords, List.cons_append, ih]
    rw [Nat.add_assoc, Nat.add_comm 1 n]

@[simp] theorem writeWords_era (m : Memory) (p : Nat) (vs : List Word) : (writeWords m p vs).era = m.era := by
  induction vs generalizing m p with
  | nil => rfl
  | cons v rest ih => simp [writeWords, ih]

/-- The frame of MemWrite: every byte outside the written words reads as before. -/
theorem readByte_writeWords (m : Memory) (p : Nat) (vs : List Word) (a : Nat)
    (h : a < 8 * p ∨ 8 * (p + vs.length) ≤ a) : readByte (writeWords m p vs) a = readByte m a := by
  induction vs generalizing m p with
  | nil => rfl
  | cons v rest ih =>
    simp only [List.length_cons] at h
    rw [writeWords, ih _ _ (by omega), readByte_writeWord, if_neg (by omega)]

theorem readWord_writeWords_out (m : Memory) (p : Nat) (vs : List Word) (q : Nat)
    (h : q < p ∨ p + vs.length ≤ q) : readWord (writeWords m p vs) q = readWord m q :=
  readWord_congr fun k hk => readByte_writeWords _ _ _ _ (by omega)

/-- MemWrite writes the words it is given. -/
theorem readWord_writeWords (m : Memory) (p : Nat) (vs : List Word) (k : Nat) (h : k < vs.length) :
    readWord (writeWords m p vs) (p + k) = vs[k] := by
  induction vs generalizing m p k with
  | nil => simp at h
  | cons v rest ih =>
    cases k with
    | zero =>
      rw [writeWords, readWord_writeWords_out _ _ _ _ (by omega), readWord_writeWord, if_pos (by omega)]
      rfl
    | succ k =>
      rw [writeWords, show p + (k + 1) = p + 1 + k by omega, ih _ _ _ (by simpa using h)]
      rfl

theorem readWords_writeWords (m : Memory) (p : Nat) (vs : List Word) :
    readWords (writeWords m p vs) p vs.length = vs := by
  apply List.ext_getElem (by simp)
  intro k h1 h2
  rw [readWords_getElem, readWord_writeWords _ _ _ _ h2]

theorem writeWords_wf {m : Memory} (h : m.wf) (p : Nat) (vs : List Word) : (writeWords m p vs).wf := by
  induction vs generalizing m p with
  | nil => exact h
  | cons v rest ih => exact ih (writeWord_wf h p v) _

theorem writeWords_below {n p : Nat} {m : Memory} (h : m.Below (8 * n)) (vs : List Word)
    (hp : vs.length = 0 ∨ p + vs.length ≤ n) : (writeWords m p vs).Below (8 * n) := by
  induction vs generalizing m p with
  | nil => exact h
  | cons v rest ih =>
    simp only [List.length_cons] at hp
    exact ih (writeWord_below h (by omega) v) (by omega)

end Sys2Proof.Machine
end

