-- ==== Sys2Proof/Laws/Bucket.lean ====
section
/-! SUPPORT. What adding the slots of one point to a bucket does to MEM (44_msm_bucket.md R162, R164). -/

namespace Sys2Proof.Machine

variable (f : FormatBA) (pre : Memory) (k d : Nat)

/-- The slots of one bucket lie one after the other. -/
theorem bucketSlot_eq (p cs d c : Nat) : bucketSlot p cs d c = bucketSlot p cs d 0 + c := rfl

@[simp] theorem addPointSlots_era (n : Nat) (m : Memory) : (addPointSlots f pre k d n m).era = m.era := by
  induction n with
  | zero => rfl
  | succ c ih => simp [addPointSlots, ih]

/-- Every byte outside the first `n` slots of bucket `d` reads as before. -/
theorem readByte_addPointSlots (n : Nat) (m : Memory) (a : Nat)
    (h : a < 8 * bucketSlot f.acc.toNat f.coordSize.toNat d 0
      ∨ 8 * (bucketSlot f.acc.toNat f.coordSize.toNat d 0 + n) ≤ a) :
    readByte (addPointSlots f pre k d n m) a = readByte m a := by
  induction n with
  | zero => rfl
  | succ c ih =>
    simp only [addPointSlots]
    rw [readByte_writeWord, if_neg (by rw [bucketSlot_eq]; omega), ih (by omega)]

/-- Slot `c` of the point is added to slot `c` of the bucket, modulo 2^64; no other word changes. -/
theorem readWord_addPointSlots (n : Nat) (m : Memory) (q : Nat) :
    readWord (addPointSlots f pre k d n m) q =
      if bucketSlot f.acc.toNat f.coordSize.toNat d 0 ≤ q ∧ q < bucketSlot f.acc.toNat f.coordSize.toNat d 0 + n
      then readWord m q + readWord pre (pointSlot f.pts.toNat f.coordSize.toNat k
        (q - bucketSlot f.acc.toNat f.coordSize.toNat d 0))
      else readWord m q := by
  induction n with
  | zero => rw [if_neg (by omega)]; rfl
  | succ c ih =>
    simp only [addPointSlots, readWord_writeWord]
    rw [bucketSlot_eq f.acc.toNat f.coordSize.toNat d c]
    generalize bucketSlot f.acc.toNat f.coordSize.toNat d 0 = base at *
    by_cases hq : q = base + c
    · subst hq
      rw [if_pos rfl, ih, if_neg (by omega), if_pos (by omega), Nat.add_sub_cancel_left]
    · rw [if_neg hq, ih]
      by_cases h : base ≤ q ∧ q < base + c
      · rw [if_pos h, if_pos (by omega)]
      · rw [if_neg h, if_neg (by omega)]

theorem addPointSlots_wf (n : Nat) {m : Memory} (h : m.wf) : (addPointSlots f pre k d n m).wf := by
  induction n with
  | zero => exact h
  | succ c ih => exact writeWord_wf ih _ _

theorem addPointSlots_below (n : Nat) {w : Nat} {m : Memory} (h : m.Below (8 * w))
    (hw : n = 0 ∨ bucketSlot f.acc.toNat f.coordSize.toNat d 0 + n ≤ w) :
    (addPointSlots f pre k d n m).Below (8 * w) := by
  induction n with
  | zero => exact h
  | succ c ih => exact writeWord_below (ih (by omega)) (by rw [bucketSlot_eq]; omega) _

/-- What one point does: nothing, or the addition of its slots to the bucket of its digit. -/
theorem addPoint_cases (m : Memory) :
    (addPoint f pre k m = m ∧ (digitOf f pre k = 0 ∨ f.numBuckets.toNat < digitOf f pre k))
      ∨ (addPoint f pre k m = addPointSlots f pre k (digitOf f pre k) f.coordSize.toNat m
          ∧ digitOf f pre k ≠ 0 ∧ digitOf f pre k ≤ f.numBuckets.toNat) := by
  unfold addPoint
  by_cases h : digitOf f pre k ≠ 0 ∧ digitOf f pre k ≤ f.numBuckets.toNat
  · exact .inr ⟨if_pos h, h⟩
  · exact .inl ⟨if_neg h, by omega⟩

@[simp] theorem addPoints_era (n : Nat) (m : Memory) : (addPoints f pre n m).era = m.era := by
  induction n with
  | zero => rfl
  | succ k ih =>
    simp only [addPoints]
    rcases addPoint_cases f pre k (addPoints f pre k m) with ⟨h, -⟩ | ⟨h, -⟩ <;> simp [h, ih]

end Sys2Proof.Machine
end

