-- ==== Sys2Proof/Laws/Checks.lean ====
section
/-! SUPPORT. Each validity check as the condition the spec gives it (60_exceptions.md R184 to R187). -/

namespace Sys2Proof.Machine

/-- Check (2) passes exactly if every must-be-zero field is zero. -/
theorem reservedOk_iff (i : Instr) : reservedOk i = true ↔ i.ReservedZero := by
  cases i <;>
    simp only [reservedOk, Instr.ReservedZero, Header.zeroWindow, Header.zeroLimbs, List.all_cons, List.all_nil,
      Bool.and_true, Bool.and_eq_true, beq_iff_eq] <;> tauto

theorem limbsSupported_iff (h : Header) : limbsSupported h = true ↔ h.supportedLimbs := by
  simp [limbsSupported, Header.supportedLimbs]

/-- Check (3) passes exactly if the limb count and the window are ones the command accepts. -/
theorem shapeOk_iff (i : Instr) : (limbsOk i = true ∧ windowOk i = true) ↔ i.ShapeLegal := by
  cases i
  case bktacc f =>
    simp only [limbsOk, windowOk, Instr.ShapeLegal, Header.legalWindow, true_and, BitVec.le_def]
    exact decide_eq_true_iff
  all_goals simp [limbsOk, windowOk, Instr.ShapeLegal, limbsSupported_iff]

theorem inRange_iff (n : Nat) (x : Region) : x.inRange n = true ↔ (x.len = 0 ∨ x.base + x.len ≤ n) := by
  simp [Region.inRange]

theorem overlap_eq_false_iff (x y : Region) :
    x.overlap y = false ↔ (x.len = 0 ∨ y.len = 0 ∨ x.base + x.len ≤ y.base ∨ y.base + y.len ≤ x.base) := by
  simp only [Region.overlap, decide_eq_false_iff_not]; omega

theorem coincide_iff (x y : Region) : x.coincide y = true ↔ (x.base = y.base ∧ x.len = y.len) := by
  simp [Region.coincide]

/-- The code a failing command is rejected with is never OK and never ERR_OPCODE. -/
theorem firstFailure_ne {n : Nat} {i : Instr} {st : Status} (h : firstFailure n i = some st) :
    st ≠ .ok ∧ st ≠ .errOpcode := by
  unfold firstFailure at h
  split_ifs at h <;> cases h <;> decide

end Sys2Proof.Machine
end

