-- ==== Sys2Proof/Laws/Flags.lean ====
section
/-! SUPPORT. The fields of RSP as `rspWord` writes them (10_state.md R23). -/

namespace Sys2Proof.Machine

/-- What RSP holds after a command: its fields, and nothing above them. -/
theorem rspWord_fields (st : Status) (cy : Bool) (cmp : Option Comparison) :
    rspStatus (rspWord st cy cmp) = statusCode st ∧ rspCy (rspWord st cy cmp) = cy
      ∧ rspCmp (rspWord st cy cmp) = cmpCode cmp ∧ rspUpper (rspWord st cy cmp) = 0 := by
  rcases cmp with _ | c
  · cases st <;> cases cy <;> decide
  · cases st <;> cases cy <;> cases c <;> decide

@[simp] theorem rspStatus_rspWord (st : Status) (cy : Bool) (cmp : Option Comparison) :
    rspStatus (rspWord st cy cmp) = statusCode st := (rspWord_fields st cy cmp).1

@[simp] theorem rspCy_rspWord (st : Status) (cy : Bool) (cmp : Option Comparison) :
    rspCy (rspWord st cy cmp) = cy := (rspWord_fields st cy cmp).2.1

@[simp] theorem rspCmp_rspWord (st : Status) (cy : Bool) (cmp : Option Comparison) :
    rspCmp (rspWord st cy cmp) = cmpCode cmp := (rspWord_fields st cy cmp).2.2.1

@[simp] theorem rspUpper_rspWord (st : Status) (cy : Bool) (cmp : Option Comparison) :
    rspUpper (rspWord st cy cmp) = 0 := (rspWord_fields st cy cmp).2.2.2

end Sys2Proof.Machine
end

