-- ==== Sys2Proof/Laws/Limbs.lean ====
section
/-! SUPPORT. Lengths and values of limb sequences (00_scope.md R14). -/

namespace Sys2Proof.Machine

/-! ### Values -/

theorem val_lt (a : Limbs) : val a < 2 ^ (64 * a.length) := by
  induction a with
  | nil => simp [val]
  | cons x a ih =>
    have hx := x.isLt
    have e : 2 ^ (64 * (a.length + 1)) = 2 ^ 64 * 2 ^ (64 * a.length) := by rw [← pow_add]; congr 1; omega
    simp only [val, List.length_cons]
    rw [e]
    have : 2 ^ 64 * (val a + 1) ≤ 2 ^ 64 * 2 ^ (64 * a.length) := Nat.mul_le_mul_left _ ih
    omega

theorem val_append (a b : Limbs) : val (a ++ b) = val a + 2 ^ (64 * a.length) * val b := by
  induction a with
  | nil => simp [val]
  | cons x a ih =>
    have e : 2 ^ (64 * (a.length + 1)) = 2 ^ 64 * 2 ^ (64 * a.length) := by rw [← pow_add]; congr 1; omega
    simp only [List.cons_append, val, ih, List.length_cons, e]
    ring

@[simp] theorem limbsOf_length (L v : Nat) : (limbsOf L v).length = L := by
  induction L generalizing v with
  | zero => rfl
  | succ L ih => simp [limbsOf, ih]

theorem val_limbsOf (L v : Nat) : val (limbsOf L v) = v % 2 ^ (64 * L) := by
  induction L generalizing v with
  | zero => simp [limbsOf, val, Nat.mod_one]
  | succ L ih =>
    have e : 2 ^ (64 * (L + 1)) = 2 ^ 64 * 2 ^ (64 * L) := by rw [← pow_add]; congr 1; omega
    simp only [limbsOf, val, ih, BitVec.toNat_ofNat, e]
    rw [Nat.mod_mul]

/-- A limb sequence is determined by its length and its value (00_scope.md R14). -/
theorem eq_limbsOf (a : Limbs) : a = limbsOf a.length (val a) := by
  induction a with
  | nil => rfl
  | cons x a ih =>
    have hx := x.isLt
    have h1 : (x.toNat + 2 ^ 64 * val a) / 2 ^ 64 = val a := by omega
    simp only [List.length_cons, limbsOf, val, h1, ← ih]
    congr 1
    apply BitVec.eq_of_toNat_eq
    simp only [BitVec.toNat_ofNat]; omega

theorem val_inj {a b : Limbs} (hl : a.length = b.length) (hv : val a = val b) : a = b := by
  rw [eq_limbsOf a, eq_limbsOf b, hl, hv]

/-! ### Lengths -/

@[simp] theorem addLoop_length (a b : Limbs) (c : Bool) : (addLoop a b c).1.length = min a.length b.length := by
  induction a generalizing b c with
  | nil => simp [addLoop]
  | cons x a ih => cases b <;> simp [addLoop, ih]

@[simp] theorem subLoop_length (a b : Limbs) (w : Bool) : (subLoop a b w).1.length = min a.length b.length := by
  induction a generalizing b w with
  | nil => simp [subLoop]
  | cons x a ih => cases b <;> simp [subLoop, ih]

@[simp] theorem addWithCarry_length (a b : Limbs) : (addWithCarry a b).1.length = min a.length b.length :=
  addLoop_length a b false

@[simp] theorem subWithBorrow_length (a b : Limbs) : (subWithBorrow a b).1.length = min a.length b.length :=
  subLoop_length a b false

@[simp] theorem mulAddLoop_length (x : Word) (y t : Limbs) (c : Word) :
    (mulAddLoop x y t c).1.length = min y.length t.length := by
  induction y generalizing t c with
  | nil => simp [mulAddLoop]
  | cons z y ih => cases t <;> simp [mulAddLoop, ih]

theorem schoolbookRows_length (a b t : Limbs) (h : t.length = b.length) :
    (schoolbookRows a b t).length = a.length + b.length := by
  induction a generalizing t with
  | nil => simp [schoolbookRows, h]
  | cons x a ih =>
    unfold schoolbookRows
    have hl : ((mulAddLoop x b t 0).1 ++ [(mulAddLoop x b t 0).2]).length = b.length + 1 := by simp [h]
    dsimp only
    generalize (mulAddLoop x b t 0).1 ++ [(mulAddLoop x b t 0).2] = r at hl
    cases r with
    | nil => simp at hl
    | cons d r =>
      have hr : r.length = b.length := by simpa using hl
      simp only [List.length_cons, ih r hr]; omega

@[simp] theorem schoolbookMul_length (a b : Limbs) : (schoolbookMul a b).length = a.length + b.length :=
  schoolbookRows_length a b _ (by simp)

@[simp] theorem propagateCarry_length (t : Limbs) (c : Word) : (propagateCarry t c).length = t.length := by
  induction t generalizing c with
  | nil => rfl
  | cons x t ih => simp [propagateCarry, ih]

theorem montIteration_length (m : Limbs) (mu : Word) (t : Limbs) (h : m.length ≤ t.length) :
    (montIteration m mu t).length = t.length := by
  simp only [montIteration, List.length_append, mulAddLoop_length, List.length_take, propagateCarry_length,
    List.length_drop]
  omega

theorem montRounds_length (m : Limbs) (mu : Word) (n : Nat) (t : Limbs) (h : m.length + n ≤ t.length) :
    (montRounds m mu n t).length = t.length - n := by
  induction n generalizing t with
  | zero => rfl
  | succ n ih =>
    have hl := montIteration_length m mu t (by omega)
    rw [montRounds, ih _ (by simp [hl]; omega)]
    simp [hl]; omega

theorem reduceOnce_length (r m : Limbs) (h : r.length = m.length) : (reduceOnce r m).length = m.length := by
  unfold reduceOnce; split <;> simp [h]

theorem montMul_length (a b m : Limbs) (mu : Word) (ha : a.length = m.length) (hb : b.length = m.length) :
    (montMul a b m mu).length = m.length := by
  unfold montMul montReduce
  exact reduceOnce_length _ _ (by rw [montRounds_length _ _ _ _ (by simp [ha, hb])]; simp [ha, hb])

theorem modAdd_length (a b m : Limbs) (ha : a.length = m.length) (hb : b.length = m.length) :
    (modAdd a b m).length = m.length := by
  unfold modAdd; dsimp only; split <;> simp [ha, hb]

theorem modSub_length (a b m : Limbs) (ha : a.length = m.length) (hb : b.length = m.length) :
    (modSub a b m).length = m.length := by
  unfold modSub; dsimp only; split <;> simp [ha, hb]

theorem bfly_length (e o tw m : Limbs) (mu : Word) (he : e.length = m.length) (ho : o.length = m.length)
    (ht : tw.length = m.length) :
    (bfly e o tw m mu).1.length = m.length ∧ (bfly e o tw m mu).2.length = m.length := by
  have h := montMul_length tw o m mu ht ho
  exact ⟨modAdd_length _ _ _ he h, modSub_length _ _ _ he h⟩

/-! ### Arrays: `flatMap` over the index of elements of one length (20_memory.md R44) -/

theorem flatMap_range_length (g : Nat → Limbs) (L n : Nat) (h : ∀ i, (g i).length = L) :
    ((List.range n).flatMap g).length = n * L := by
  simp [List.length_flatMap, h]

theorem batchElem_length (f : FormatBM) (m : Memory) (i : Nat) : (batchElem f m i).length = limbCount f.hdr := by
  unfold batchElem
  rw [montMul_length] <;> simp [readElem]

theorem batchResult_length (f : FormatBM) (m : Memory) :
    (batchResult f m).length = f.count.toNat * limbCount f.hdr := by
  unfold batchResult
  split
  · exact flatMap_range_length _ _ _ (batchElem_length f m)
  · simp

theorem bflyElem_length (f : FormatNB) (m : Memory) (i : Nat) :
    (bflyElem f m i).1.length = limbCount f.hdr ∧ (bflyElem f m i).2.length = limbCount f.hdr := by
  have h := bfly_length (readElem m f.inEven.toNat (limbCount f.hdr) i) (readElem m f.inOdd.toNat (limbCount f.hdr) i)
    (readElem m f.tw.toNat (limbCount f.hdr) i) (readWords m f.modulus.toNat (limbCount f.hdr)) f.mu
    (by simp [readElem]) (by simp [readElem]) (by simp [readElem])
  simpa [bflyElem] using h

theorem bflyEvens_length (f : FormatNB) (m : Memory) : (bflyEvens f m).length = f.n.toNat * limbCount f.hdr :=
  flatMap_range_length _ _ _ fun i => (bflyElem_length f m i).1

theorem bflyOdds_length (f : FormatNB) (m : Memory) : (bflyOdds f m).length = f.n.toNat * limbCount f.hdr :=
  flatMap_range_length _ _ _ fun i => (bflyElem_length f m i).2

end Sys2Proof.Machine
end

