-- ==== Sys2Proof/Laws/PerInstr.lean ====
section
/-! SUPPORT. Statements about every command as syntax, one lemma per constructor. -/

/-- The opcode byte of the encoding is the command's (30_encoding.md R70). -/
def Sys2Proof.Laws.OpcodeByte.Statement (i : Sys2Proof.Instr) : Prop :=
  (Sys2Proof.encode i).op = Sys2Proof.opcodeOf (Sys2Proof.mnemonicOfInstr i)

namespace Sys2Proof.Laws

/-- The header's fields come back from the header word (30_encoding.md R61). -/
theorem extract_opcode (m : Mnemonic) (h : Header) : (encodeHeader m h).extractLsb' 0 8 = opcodeOf m := by
  apply BitVec.eq_of_getLsbD_eq
  intro i hi
  simp only [encodeHeader, BitVec.getLsbD_extractLsb', BitVec.getLsbD_append, hi, Nat.zero_add, decide_true,
    Bool.true_and, if_true]

namespace OpcodeByte

theorem ladd (f : FormatLB) : Statement (.ladd f) := extract_opcode _ _
theorem lsub (f : FormatLB) : Statement (.lsub f) := extract_opcode _ _
theorem lcmp (f : FormatLC) : Statement (.lcmp f) := extract_opcode _ _
theorem montmul (f : FormatMM) : Statement (.montmul f) := extract_opcode _ _
theorem bmontmul (f : FormatBM) : Statement (.bmontmul f) := extract_opcode _ _
theorem nttbfly (f : FormatNB) : Statement (.nttbfly f) := extract_opcode _ _
theorem bktacc (f : FormatBA) : Statement (.bktacc f) := extract_opcode _ _

end OpcodeByte

end Sys2Proof.Laws
end

