-- ==== Sys2Proof/Laws/Step.lean ====
section
/-! SUPPORT. What a command, a HOST step and a step of the machine can do: said once, for later proofs to cite. -/

namespace Sys2Proof.Machine

/-- What `runUnless` can answer: the rejection with the failure's code, or the rule. -/
theorem runUnless_cases {failure : Option Status} {s t : State} {rule : State → State}
    (h : runUnless failure s rule = .next t) :
    (∃ st, failure = some st ∧ t = reject st s) ∨ (failure = none ∧ t = rule s) := by
  cases failure with
  | none => exact .inr ⟨rfl, by simpa [runUnless] using h.symm⟩
  | some st => exact .inl ⟨st, rfl, by simpa [runUnless] using h.symm⟩

/-- The rule of each command, the effect of one that passes the checks. -/
def ruleOf (i : Instr) (s : State) : State :=
  match i with
  | .ladd f => ruleLadd f s
  | .lsub f => ruleLsub f s
  | .lcmp f => ruleLcmp f s
  | .montmul f => ruleMontmul f s
  | .bmontmul f => ruleBmontmul f s
  | .nttbfly f => ruleNttbfly f s
  | .bktacc f => ruleBktacc f s

/-- Every command is validated and then performs its rule. -/
theorem exec_eq (i : Instr) (s : State) :
    exec i s = runUnless (firstFailure s.cfg.memWords i) s (ruleOf i) := by
  cases i <;> rfl

/-- What `exec` can answer. -/
theorem exec_cases {i : Instr} {s t : State} (h : exec i s = .next t) :
    (∃ st, firstFailure s.cfg.memWords i = some st ∧ t = reject st s)
      ∨ (firstFailure s.cfg.memWords i = none ∧ t = ruleOf i s) := by
  rw [exec_eq] at h; exact runUnless_cases h

/-- A rule ends by `complete`: MEM and RSP are written, BUSY is cleared, all else stays. -/
theorem ruleOf_eq (i : Instr) (s : State) : ∃ m cy cmp, ruleOf i s = complete m cy cmp s := by
  cases i <;> exact ⟨_, _, _, rfl⟩

/-- A command that is rejected. -/
theorem exec_reject {i : Instr} {s : State} {st : Status} (h : firstFailure s.cfg.memWords i = some st) :
    exec i s = .next (reject st s) := by
  rw [exec_eq, h]; rfl

/-- A command that completes. -/
theorem exec_rule {i : Instr} {s : State} (h : firstFailure s.cfg.memWords i = none) :
    exec i s = .next (ruleOf i s) := by
  rw [exec_eq, h]; rfl

/-- What the ENGINE's turn can answer. -/
theorem engineTurn_cases {s t : State} (h : engineTurn s = .next t) :
    (s.latch = none ∧ t = s)
      ∨ (∃ pkt i, s.latch = some pkt ∧ decode pkt = .command i ∧ exec i s = .next t)
      ∨ (∃ pkt op, s.latch = some pkt ∧ decode pkt = .reservedOpcode op ∧ t = reject .errOpcode s) := by
  unfold engineTurn at h
  split at h
  · next hl => exact .inl ⟨hl, by simpa using h.symm⟩
  · next pkt hl =>
    split at h
    · next i hd => exact .inr (.inl ⟨pkt, i, hl, hd, h⟩)
    · next op hd => exact .inr (.inr ⟨pkt, op, hl, hd, by simpa using h.symm⟩)

/-- What a HOST access to MEM can answer. -/
theorem hostMemAccess_cases {p : Nat} {s s' t : State} (h : hostMemAccess p s s' = .next t) :
    s.busy = false ∧ p < s.cfg.memWords ∧ t = s' := by
  unfold hostMemAccess at h
  split at h
  · cases h
  · next hb =>
    split at h
    · next hp => exact ⟨by simpa using hb, hp, by simpa using h.symm⟩
    · cases h

/-- What a HOST step can do. -/
theorem hostTurn_cases {a : HostStep} {s t : State} (h : hostTurn a s = .next t) :
    (∃ p v, a = .write p v ∧ s.busy = false ∧ p < s.cfg.memWords ∧ t = { s with mem := writeWord s.mem p v })
      ∨ (∃ p, a = .read p ∧ s.busy = false ∧ p < s.cfg.memWords
          ∧ t = { s with hostLog := .word (readWord s.mem p) :: s.hostLog })
      ∨ (∃ pkt, a = .issue pkt ∧ s.busy = true ∧ t = s)
      ∨ (∃ pkt, a = .issue pkt ∧ s.busy = false ∧ t = { s with latch := some pkt })
      ∨ (a = .readRsp ∧ t = { s with hostLog := .response s.rsp s.busy :: s.hostLog }) := by
  cases a with
  | write p v => exact .inl ⟨p, v, rfl, hostMemAccess_cases h⟩
  | read p => exact .inr (.inl ⟨p, rfl, hostMemAccess_cases h⟩)
  | issue pkt =>
    simp only [hostTurn, hostIssue] at h
    split at h
    · next hb => exact .inr (.inr (.inl ⟨pkt, rfl, hb, by simpa using h.symm⟩))
    · next hb => exact .inr (.inr (.inr (.inl ⟨pkt, rfl, by simpa using hb, by simpa using h.symm⟩)))
  | readRsp => exact .inr (.inr (.inr (.inr ⟨rfl, by simpa [hostTurn, hostReadRsp] using h.symm⟩)))

/-- What a step can do: the ENGINE's turn, a HOST step, or the reset event. -/
theorem step_cases {s t : State} (h : step s = .next t) :
    (s.schedule = [] ∧ engineTurn s = .next t)
      ∨ (∃ rest, s.schedule = .engine :: rest ∧ engineTurn { s with schedule := rest } = .next t)
      ∨ (∃ a rest, s.schedule = .host a :: rest ∧ hostTurn a { s with schedule := rest } = .next t)
      ∨ (∃ rest, s.schedule = .reset :: rest ∧ t = resetEvent { s with schedule := rest }) := by
  simp only [step, takeTurn] at h
  split at h
  · next hs => exact .inl ⟨hs, h⟩
  · next rest hs => exact .inr (.inl ⟨rest, hs, h⟩)
  · next a rest hs => exact .inr (.inr (.inl ⟨a, rest, hs, h⟩))
  · next rest hs => exact .inr (.inr (.inr ⟨rest, hs, by simpa using h.symm⟩))

end Sys2Proof.Machine
end

