-- ==== Sys2Proof/Tests/Slice0.lean ====
section
/-! SUPPORT. Tests: the checks on ill-formed packets, decoding of words written out from the encoding, one step of
each command on vectors of 95_test_vectors.md, and a witness for every obligation that has hypotheses. -/

namespace Sys2Proof.Tests

set_option Elab.async false

open Sys2Proof Sys2Proof.Machine

/-! ### Helpers -/

/-- A header with RSV0 = 0. -/
def hdr (limbs window : Field8) : Header := { limbs := limbs, window := window, rsv0 := 0 }

/-- An LADD or LSUB packet with every must-be-zero word zero. -/
def lb (limbs : Field8) (dst a b : Word) : FormatLB :=
  { hdr := hdr limbs 0, dst := dst, a := a, b := b, mbz4 := 0, mbz5 := 0, mbz6 := 0, mbz7 := 0, mbz8 := 0, mbz9 := 0 }

/-- An LCMP packet. -/
def lc (limbs : Field8) (a b : Word) : FormatLC :=
  { hdr := hdr limbs 0, mbz1 := 0, a := a, b := b, mbz4 := 0, mbz5 := 0, mbz6 := 0, mbz7 := 0, mbz8 := 0, mbz9 := 0 }

/-- The constant of the scenario modulus (95_test_vectors.md 2.1). -/
def mu : Word := 0xFFFFFFFEFFFFFFFF

/-- A MONTMUL packet, MOD at 0. -/
def mm (limbs : Field8) (dst a b : Word) : FormatMM :=
  { hdr := hdr limbs 0, dst := dst, a := a, b := b, modulus := 0, mu := mu, mbz6 := 0, mbz7 := 0, mbz8 := 0, mbz9 := 0 }

/-- A BMONTMUL packet, MOD at 0. -/
def bm (limbs : Field8) (dst a b count : Word) : FormatBM :=
  { hdr := hdr limbs 0, dst := dst, a := a, b := b, modulus := 0, mu := mu, count := count, mbz7 := 0, mbz8 := 0,
    mbz9 := 0 }

/-- An NTTBFLY packet, MOD at 0. -/
def nb (limbs : Field8) (outEven outOdd inEven inOdd tw twIm n : Word) : FormatNB :=
  { hdr := hdr limbs 0, outEven := outEven, outOdd := outOdd, inEven := inEven, inOdd := inOdd, tw := tw, twIm := twIm,
    n := n, modulus := 0, mu := mu }

/-- A BKTACC packet. -/
def ba (window : Field8) (acc idx pts numPoints numBuckets coordSize : Word) : FormatBA :=
  { hdr := hdr 0 window, acc := acc, idx := idx, pts := pts, numPoints := numPoints, numBuckets := numBuckets,
    coordSize := coordSize, mbz7 := 0, mbz8 := 0, mbz9 := 0 }

/-- A machine of 256 words, idle, with these words written. -/
def machine (words : List (Nat × List Word)) : State :=
  { State.reset with mem := words.foldl (fun m x => writeWords m x.1 x.2) State.reset.mem }

/-- The machine with a packet accepted. -/
def busyWith (pkt : Packet) (s : State) : State := { s with latch := some pkt }

/-- What `g` reads of the next state, if there is one. -/
def after {α : Type} (o : Host.Outcome State Fault Refusal) (g : State → α) : Option α :=
  match o with
  | .next t => some (g t)
  | .fault _ => none
  | .refused _ => none

/-- RSP and `n` words from `p` on. -/
def look (p n : Nat) (t : State) : Word × List Word := (t.rsp, readWords t.mem p n)

/-- The scenario modulus (95_test_vectors.md 2.1). -/
def modulus : Limbs := [0xFFFFFFFF00000001, 0x53BDA402FFFE5BFE, 0x3339D80809A1D805, 0x73EDA753299D7D48]

/-- M(1), M(2), M(3), M(4), M(7), M(-5) for it (95_test_vectors.md 2.2). -/
def m1 : Limbs := [0x00000001FFFFFFFE, 0x5884B7FA00034802, 0x998C4FEFECBC4FF5, 0x1824B159ACC5056F]
def m2 : Limbs := [0x00000003FFFFFFFC, 0xB1096FF400069004, 0x33189FDFD9789FEA, 0x304962B3598A0ADF]
def m3 : Limbs := [0x00000005FFFFFFFA, 0x098E27EE0009D806, 0xCCA4EFCFC634EFE0, 0x486E140D064F104E]
def m4 : Limbs := [0x00000007FFFFFFF8, 0x6212DFE8000D2008, 0x66313FBFB2F13FD5, 0x6092C566B31415BE]
def m7 : Limbs := [0x0000000EFFFFFFF1, 0x17E363D300189C0F, 0xFF9C57876F8457B0, 0x351332208FC5A8C4]
def minus5 : Limbs := [0xFFFFFFF40000000C, 0xECE3B023FFEC4FF3, 0x66B620607396203F, 0x6F23D7E5F361DF62]

/-! ### Ill-formed terms, refused by the checks of WellFormed -/

theorem test_wf_lb_reserved :
    (Instr.ladd (lb 4 0x20 0x10 0x18)).WellFormed ∧ ∀ f ∈ [
      { lb 4 0x20 0x10 0x18 with hdr := hdr 4 1 },
      { lb 4 0x20 0x10 0x18 with hdr := { limbs := 4, window := 0, rsv0 := 1 } },
      { lb 4 0x20 0x10 0x18 with mbz4 := 1 }, { lb 4 0x20 0x10 0x18 with mbz5 := 1 },
      { lb 4 0x20 0x10 0x18 with mbz6 := 1 }, { lb 4 0x20 0x10 0x18 with mbz7 := 1 },
      { lb 4 0x20 0x10 0x18 with mbz8 := 1 }, { lb 4 0x20 0x10 0x18 with mbz9 := 1 }],
      ¬ (Instr.ladd f).ReservedZero ∧ ¬ (Instr.lsub f).ReservedZero := by decide

theorem test_wf_lc_reserved :
    (Instr.lcmp (lc 6 0x10 0x18)).WellFormed ∧ ∀ f ∈ [
      { lc 6 0x10 0x18 with hdr := hdr 6 1 }, { lc 6 0x10 0x18 with mbz1 := 1 }, { lc 6 0x10 0x18 with mbz4 := 1 },
      { lc 6 0x10 0x18 with mbz5 := 1 }, { lc 6 0x10 0x18 with mbz6 := 1 }, { lc 6 0x10 0x18 with mbz7 := 1 },
      { lc 6 0x10 0x18 with mbz8 := 1 }, { lc 6 0x10 0x18 with mbz9 := 1 }],
      ¬ (Instr.lcmp f).ReservedZero := by decide

theorem test_wf_mm_reserved :
    (Instr.montmul (mm 4 0x20 0x10 0x18)).WellFormed ∧ ∀ f ∈ [
      { mm 4 0x20 0x10 0x18 with hdr := { limbs := 4, window := 0, rsv0 := 1 } }, { mm 4 0x20 0x10 0x18 with mbz6 := 1 },
      { mm 4 0x20 0x10 0x18 with mbz7 := 1 }, { mm 4 0x20 0x10 0x18 with mbz8 := 1 },
      { mm 4 0x20 0x10 0x18 with mbz9 := 1 }],
      ¬ (Instr.montmul f).ReservedZero := by decide

theorem test_wf_bm_reserved :
    (Instr.bmontmul (bm 5 0x70 0x60 0x68 2)).WellFormed ∧ ∀ f ∈ [
      { bm 4 0x70 0x60 0x68 2 with hdr := hdr 4 1 }, { bm 4 0x70 0x60 0x68 2 with mbz7 := 1 },
      { bm 4 0x70 0x60 0x68 2 with mbz8 := 1 }, { bm 4 0x70 0x60 0x68 2 with mbz9 := 1 }],
      ¬ (Instr.bmontmul f).ReservedZero := by decide

theorem test_wf_nb_reserved :
    (Instr.nttbfly (nb 4 0x70 0x80 0x40 0x50 0x60 7 3)).WellFormed
      ∧ ¬ (Instr.nttbfly { nb 4 0x70 0x80 0x40 0x50 0x60 0 3 with hdr := hdr 4 2 }).ReservedZero := by decide

theorem test_wf_ba_reserved :
    (Instr.bktacc (ba 64 0x80 0x90 0xA0 5 3 1)).WellFormed ∧ ∀ f ∈ [
      { ba 2 0x80 0x90 0xA0 5 3 1 with hdr := hdr 4 2 }, { ba 2 0x80 0x90 0xA0 5 3 1 with mbz7 := 1 },
      { ba 2 0x80 0x90 0xA0 5 3 1 with mbz8 := 1 }, { ba 2 0x80 0x90 0xA0 5 3 1 with mbz9 := 1 }],
      ¬ (Instr.bktacc f).ReservedZero := by decide

theorem test_wf_limbs_and_window :
    (∀ h ∈ [hdr 0 0, hdr 3 0, hdr 5 0, hdr 7 0, hdr 255 0], ¬ (Instr.ladd { lb 4 0x20 0x10 0x18 with hdr := h }).ShapeLegal
        ∧ ¬ (Instr.lsub { lb 4 0x20 0x10 0x18 with hdr := h }).ShapeLegal
        ∧ ¬ (Instr.lcmp { lc 4 0x10 0x18 with hdr := h }).ShapeLegal
        ∧ ¬ (Instr.montmul { mm 4 0x20 0x10 0x18 with hdr := h }).ShapeLegal
        ∧ ¬ (Instr.nttbfly { nb 4 0x70 0x80 0x40 0x50 0x60 0 1 with hdr := h }).ShapeLegal)
      ∧ ¬ (Instr.bktacc (ba 65 0x80 0x90 0xA0 5 3 1)).ShapeLegal := by decide

/-! ### Decoding: PKT[0] written out as RSV0, W, L, OP (30_encoding.md R61, R70), PKT[1] to PKT[9] all different
(R63 to R68) -/

theorem test_decode_ladd :
    decode ⟨0#40 ++ 0b00000000#8 ++ 0b00000100#8 ++ 0b00000001#8, 1, 2, 3, 4, 5, 6, 7, 8, 9⟩
      = .command (.ladd { hdr := hdr 4 0, dst := 1, a := 2, b := 3, mbz4 := 4, mbz5 := 5, mbz6 := 6, mbz7 := 7,
                          mbz8 := 8, mbz9 := 9 }) := by decide

theorem test_decode_lsub :
    decode ⟨0#40 ++ 0b00000000#8 ++ 0b00000110#8 ++ 0b00000010#8, 1, 2, 3, 4, 5, 6, 7, 8, 9⟩
      = .command (.lsub { hdr := hdr 6 0, dst := 1, a := 2, b := 3, mbz4 := 4, mbz5 := 5, mbz6 := 6, mbz7 := 7,
                          mbz8 := 8, mbz9 := 9 }) := by decide

theorem test_decode_lcmp :
    decode ⟨0#40 ++ 0b00000001#8 ++ 0b00000100#8 ++ 0b00000011#8, 1, 2, 3, 4, 5, 6, 7, 8, 9⟩
      = .command (.lcmp { hdr := hdr 4 1, mbz1 := 1, a := 2, b := 3, mbz4 := 4, mbz5 := 5, mbz6 := 6, mbz7 := 7,
                          mbz8 := 8, mbz9 := 9 }) := by decide

theorem test_decode_montmul :
    decode ⟨1#40 ++ 0b00000000#8 ++ 0b00000100#8 ++ 0b00010000#8, 1, 2, 3, 4, 5, 6, 7, 8, 9⟩
      = .command (.montmul { hdr := { limbs := 4, window := 0, rsv0 := 1 }, dst := 1, a := 2, b := 3, modulus := 4,
                             mu := 5, mbz6 := 6, mbz7 := 7, mbz8 := 8, mbz9 := 9 }) := by decide

theorem test_decode_bmontmul :
    decode ⟨0#40 ++ 0b00000000#8 ++ 0b11111111#8 ++ 0b00010001#8, 1, 2, 3, 4, 5, 6, 7, 8, 9⟩
      = .command (.bmontmul { hdr := hdr 255 0, dst := 1, a := 2, b := 3, modulus := 4, mu := 5, count := 6,
                              mbz7 := 7, mbz8 := 8, mbz9 := 9 }) := by decide

theorem test_decode_nttbfly :
    decode ⟨0#40 ++ 0b00000000#8 ++ 0b00000110#8 ++ 0b00100000#8, 1, 2, 3, 4, 5, 6, 7, 8, 9⟩
      = .command (.nttbfly { hdr := hdr 6 0, outEven := 1, outOdd := 2, inEven := 3, inOdd := 4, tw := 5, twIm := 6,
                             n := 7, modulus := 8, mu := 9 }) := by decide

theorem test_decode_bktacc :
    decode ⟨0#40 ++ 0b01000000#8 ++ 0b00000000#8 ++ 0b00110000#8, 1, 2, 3, 4, 5, 6, 7, 8, 9⟩
      = .command (.bktacc { hdr := hdr 0 64, acc := 1, idx := 2, pts := 3, numPoints := 4, numBuckets := 5,
                            coordSize := 6, mbz7 := 7, mbz8 := 8, mbz9 := 9 }) := by decide

/-- V-RJ-1 to V-RJ-3: reserved opcodes; and 0x31, the neighbour of BKTACC. -/
theorem test_decode_reserved :
    decode ⟨0x0, 0, 0, 0, 0, 0, 0, 0, 0, 0⟩ = .reservedOpcode 0x00
      ∧ decode ⟨0x404, 0x20, 0x10, 0x18, 0, 0, 0, 0, 0, 0⟩ = .reservedOpcode 0x04
      ∧ decode ⟨0x412, 0x20, 0x10, 0x18, 0, mu, 2, 0, 0, 0⟩ = .reservedOpcode 0x12
      ∧ decode ⟨0x20031, 0x80, 0x90, 0xA0, 5, 3, 1, 0, 0, 0⟩ = .reservedOpcode 0x31 := by decide

/-- A table word of the 640-bit numbering: PKT[0] in bits 63..0, PKT[1] in bits 127..64, PKT[9] the topmost (log 18). -/
theorem test_table_word :
    decodeTableWord 640 (0x602 + 0x15 * 2 ^ 64 + 0x20 * 2 ^ 128 + 0x10 * 2 ^ 192 + 7 * 2 ^ 576)
        = some (.lsub { lb 6 0x15 0x20 0x10 with mbz9 := 7 })
      ∧ decodeTableWord 64 (0x602 + 0x15 * 2 ^ 64) = some (.lsub (lb 6 0 0 0))
      ∧ decodeTableWord 640 4 = none := by decide +kernel

/-- The packet placed by `withFetchWord` is the one the next step runs: LCMP.4 of the same four zero words. -/
theorem test_withFetchWord :
    after (step ((machine [(0, [0, 0, 0, 0])]).withFetchWord 640 0x403)) (fun t => (t.rsp, t.busy))
      = some (0x400, false) := by decide +kernel

/-! ### One step of each command, on vectors of 95_test_vectors.md -/

/-- V-LA-25: DST = A = B, a carry out and a carry that stops. -/
theorem test_ladd_in_place :
    after (exec (.ladd (lb 4 0x10 0x10 0x10)) (machine [(0x10, [0xFFFFFFFFFFFFFFFF, 1, 0, 0x8000000000000000])]))
        (look 0x10 4)
      = some (0x100, [0xFFFFFFFFFFFFFFFE, 3, 0, 0]) := by decide +kernel

/-- V-LA-15: six limbs, the carry absorbed in the top limb. -/
theorem test_ladd_six :
    after (exec (.ladd (lb 6 0x20 0x10 0x18)) (machine [(0x10, [-1, -1, -1, -1, -1, 0]), (0x18, [1, 0, 0, 0, 0, 0])]))
        (look 0x20 6)
      = some (0, [0, 0, 0, 0, 0, 1]) := by decide +kernel

/-- V-LA-11: a < b, every limb borrows. -/
theorem test_lsub_borrow :
    after (exec (.lsub (lb 4 0x20 0x10 0x18)) (machine [(0x10, [1, 2, 3, 4]), (0x18, [5, 6, 7, 8])])) (look 0x20 4)
      = some (0x100, [0xFFFFFFFFFFFFFFFC, 0xFFFFFFFFFFFFFFFB, 0xFFFFFFFFFFFFFFFB, 0xFFFFFFFFFFFFFFFB]) := by
  decide +kernel

/-- V-LA-10: the borrow crosses three boundaries; DST = B. -/
theorem test_lsub_absorbed :
    after (exec (.lsub (lb 4 0x18 0x10 0x18)) (machine [(0x10, [0, 0, 0, 1]), (0x18, [1, 0, 0, 0])])) (look 0x18 4)
      = some (0, [0xFFFFFFFFFFFFFFFF, 0xFFFFFFFFFFFFFFFF, 0xFFFFFFFFFFFFFFFF, 0]) := by decide +kernel

/-- V-LA-19: less, although limb 0 is greater. -/
theorem test_lcmp_less :
    after (exec (.lcmp (lc 4 0x10 0x18)) (machine [(0x10, [0xFFFFFFFFFFFFFFFF, 0, 0, 0]), (0x18, [0, 1, 0, 0])]))
        (look 0x10 4)
      = some (0x200, [0xFFFFFFFFFFFFFFFF, 0, 0, 0]) := by decide +kernel

/-- V-LA-24: six limbs, greater by limb 0. -/
theorem test_lcmp_greater :
    after (exec (.lcmp (lc 6 0x10 0x18)) (machine [(0x10, [1, 0, 0, 0, 0, 7]), (0x18, [0, 0, 0, 0, 0, 7])])) (·.rsp)
      = some 0x600 := by decide +kernel

/-- Program P1, first command: 7 by R^2 mod m is M(7). -/
theorem test_montmul_into_form :
    after (exec (.montmul (mm 4 0x18 0x10 0x04)) (machine [(0, modulus),
        (4, [0xC999E990F3F29C6D, 0x2B6CEDCB87925C23, 0x05D314967254398F, 0x0748D9D99F59FF11]), (0x10, [7, 0, 0, 0])]))
        (look 0x18 4)
      = some (0, m7) := by decide +kernel

/-- V-MM-1, the source's identity scenario, with A = B = DST. -/
theorem test_montmul_identity :
    after (exec (.montmul (mm 4 0x10 0x10 0x10)) (machine [(0, modulus), (0x10, m1)])) (look 0x10 4)
      = some (0, m1) := by decide +kernel

/-- Two squares, in place: M(1) M(1) = M(1) and M(2) M(2) = M(4) (41_montgomery.md R119, 95_test_vectors.md 2.2). -/
theorem test_bmontmul_two :
    after (exec (.bmontmul (bm 4 8 8 8 2)) (machine [(0, modulus), (8, m1 ++ m2)])) (look 8 8)
      = some (0, m1 ++ m4) := by decide +kernel

/-- Program P2, `BMONTMUL.5`: ten zero words and no more, STATUS = OK. -/
theorem test_bmontmul_zero_fill :
    after (exec (.bmontmul (bm 5 0x70 0x40 0x50 2)) (machine [(0x70, [1, 1, 1, 1, 1, 1, 1, 1, 1, 1, 1])]))
        (look 0x70 11)
      = some (0, [0, 0, 0, 0, 0, 0, 0, 0, 0, 0, 1]) := by decide +kernel

/-- Program P2, first lane of the first command, in place, TW_IM set: 1 + 3*2 and 1 - 3*2. -/
theorem test_nttbfly_in_place :
    after (exec (.nttbfly (nb 4 0x40 0x48 0x40 0x48 0x50 0xDEADBEEF 1))
        (machine [(0, modulus), (0x40, m1), (0x48, m2), (0x50, m3)])) (fun t => (look 0x40 4 t, look 0x48 4 t))
      = some ((0, m7), (0, minus5)) := by decide +kernel

/-- V-BA-3: masking to two bits, accumulation onto a non-zero ACC, a wrap without signal. -/
theorem test_bktacc_mask :
    after (exec (.bktacc (ba 2 0x80 0x98 0xA8 3 3 1)) (machine [(0x80, [60, 30, 40]),
        (0x98, [0x1F, 0x10, 0xFFFFFFFFFFFFFFFE]), (0xA8, [1, 2, 0xFFFFFFFFFFFFFFFF])])) (look 0x80 3)
      = some (0, [60, 29, 41]) := by decide +kernel

/-- Points 1 and 4 of V-BA-5, W = 3: slots of three, digit 7 above NUM_BUCKETS is skipped. -/
theorem test_bktacc_slots :
    after (exec (.bktacc (ba 3 0x80 0x90 0xA0 2 1 3)) (machine [(0x80, [0, 0, 0]), (0x90, [1, 7]),
        (0xA0, [4, 5, 6, 13, 14, 15])])) (look 0x80 3)
      = some (0, [4, 5, 6]) := by decide +kernel

/-- STATUS after the ENGINE's turn on a packet. -/
def statusOf (pkt : Packet) : Option Field8 := after (engineTurn (busyWith pkt (machine []))) (fun t => rspStatus t.rsp)

/-- V-RJ-2, 6, 13, 14, 17, 18, 19, 22, 26, 27, 28, 31, 34, 37, 41: each code and the order of the checks. -/
theorem test_rejections :
    [statusOf ⟨0x404, 0x20, 0x10, 0x18, 0, 0, 0, 0, 0, 0⟩, statusOf ⟨0x10401, 0x20, 0x10, 0x18, 0, 0, 0, 0, 0, 0⟩,
      statusOf ⟨0x510, 0x20, 0x10, 0x18, 0, mu, 0, 0, 0, 0⟩, statusOf ⟨0x1, 0x20, 0x10, 0x18, 0, 0, 0, 0, 0, 0⟩,
      statusOf ⟨0x510, 0x1000, 0x10, 0x18, 0, mu, 0, 0, 0, 0⟩, statusOf ⟨0x510, 0x20, 0x10, 0x18, 0, mu, 1, 0, 0, 0⟩,
      statusOf ⟨0x410030, 0x80, 0x90, 0xA0, 5, 3, 1, 0, 0, 0⟩, statusOf ⟨0x401, 0xFD, 0x10, 0x18, 0, 0, 0, 0, 0, 0⟩,
      statusOf ⟨0x411, 0, 0, 0, 0, mu, 0x4000000000000000, 0, 0, 0⟩,
      statusOf ⟨0x20030, 0x80, 0x90, 0xA0, 5, 0x8000000000000000, 2, 0, 0, 0⟩,
      statusOf ⟨0x401, 0xFD, 0xFD, 0xFD, 0, 0, 0, 0, 0, 0⟩, statusOf ⟨0x602, 0x15, 0x20, 0x10, 0, 0, 0, 0, 0, 0⟩,
      statusOf ⟨0x410, 3, 0x10, 0x18, 0, mu, 0, 0, 0, 0⟩, statusOf ⟨0x511, 0x62, 0x60, 0x6A, 0, mu, 2, 0, 0, 0⟩,
      statusOf ⟨0x20030, 0x80, 0x82, 0xA0, 5, 3, 1, 0, 0, 0⟩]
    = [some 1, some 2, some 3, some 3, some 3, some 2, some 4, some 5, some 5, some 5, some 5, some 6, some 6, some 6,
      some 6] := by decide +kernel

/-- V-RJ-21, 23, 30, 32, 35, 43, 44: the accepted neighbours. -/
theorem test_legal_neighbours :
    Legal 256 (.bktacc (ba 64 0x80 0x90 0xA0 5 3 1)) ∧ Legal 256 (.ladd (lb 4 0xFC 0x10 0x18))
      ∧ Legal 256 (.ladd (lb 4 0x10 0x10 0x18)) ∧ Legal 256 (.lcmp (lc 4 0x10 0x12))
      ∧ Legal 256 (.montmul (mm 4 0x20 0 0)) ∧ Legal 256 (.bktacc (ba 2 0x80 0x90 0x90 5 3 1))
      ∧ Legal 256 (.bktacc (ba 2 0x80 0x80 0x80 0 3 1)) :=
  ⟨by decide, by decide, by decide, by decide, by decide, by decide, by decide⟩

/-! ### Witnesses: states and operands that meet the hypotheses of the obligations -/

/-- LADD.4 0x30, 0x28, 0x2C (program P4). -/
def laddPacket : Packet := ⟨0x401, 0x30, 0x28, 0x2C, 0, 0, 0, 0, 0, 0⟩

/-- A packet with a reserved opcode (V-RJ-2). -/
def badPacket : Packet := ⟨0x404, 0x20, 0x10, 0x18, 0, 0, 0, 0, 0, 0⟩

/-- Program P4's machine. -/
def p4 : State := machine [(0, modulus), (0x28, m1), (0x2C, [2, 0, 0, 0])]

/-- A small MEM with a full RSP: `RSP = 0x600` of an LCMP. -/
def small : State := { machine [(3, [7]), (255, [9])] with rsp := 0x600 }

theorem witness_EncodeDecodeRoundTrip : decode laddPacket = .command (.ladd (lb 4 0x30 0x28 0x2C)) := by decide

theorem witness_OpcodeAloneSelectsCommand :
    badPacket.op ∉ [(0x01 : Field8), 0x02, 0x03, 0x10, 0x11, 0x20, 0x30]
      ∧ laddPacket.op ∈ [(0x01 : Field8), 0x02, 0x03, 0x10, 0x11, 0x20, 0x30] := by decide

theorem witness_StepKeepsInvariant :
    State.Inv (busyWith laddPacket small) ∧ ∃ t, step (busyWith laddPacket small) = .next t :=
  ⟨by decide +kernel, _, rfl⟩

/-- A reset while a command is in flight. -/
theorem witness_ResetEventEffect :
    { busyWith laddPacket small with schedule := [.reset, .engine] }.schedule = .reset :: [.engine] := rfl

theorem witness_StepRunsDecodedCommand :
    decode laddPacket = .command (.ladd (lb 4 0x30 0x28 0x2C)) ∧ (busyWith laddPacket small).latch = some laddPacket
      ∧ (busyWith laddPacket small).schedule = []
      ∧ { busyWith laddPacket small with schedule := [.engine] }.schedule = .engine :: [] := by decide +kernel

theorem witness_IdleEngineChangesNothing :
    small.latch = none ∧ small.schedule = [] ∧ { small with schedule := [.engine] }.schedule = .engine :: [] := by
  decide +kernel

theorem witness_PacketListIsLeftFold : small.latch = none ∧ 2 * [laddPacket, badPacket].length = 4 := by decide +kernel

theorem witness_StepKeepsMemWords : ∃ t, step (busyWith laddPacket small) = .next t := ⟨_, rfl⟩

/-- HostWrite, HostRead at the last word of MEM. -/
theorem witness_HostWriteEffect :
    { small with schedule := [.host (.write 255 1)] }.schedule = .host (.write 255 1) :: [] ∧ small.latch = none
      ∧ 255 < small.cfg.memWords := by decide +kernel

theorem witness_HostReadEffect :
    { small with schedule := [.host (.read 255)] }.schedule = .host (.read 255) :: [] ∧ small.latch = none
      ∧ 255 < small.cfg.memWords := by decide +kernel

theorem witness_HostIssueEffect :
    { small with schedule := [.host (.issue badPacket)] }.schedule = .host (.issue badPacket) :: []
      ∧ small.latch = none := by decide +kernel

theorem witness_IssueWhileBusyHasNoEffect :
    { busyWith laddPacket small with schedule := [.host (.issue badPacket)] }.schedule = .host (.issue badPacket) :: []
      ∧ (busyWith laddPacket small).busy = true := by decide +kernel

theorem witness_HostReadRspEffect :
    { busyWith laddPacket small with schedule := [.host .readRsp] }.schedule = .host .readRsp :: [] := rfl

/-- While BUSY = 1 inside and outside MEM; while BUSY = 0 at the first word MEM does not have. -/
theorem witness_HostMemAccessStops :
    (busyWith laddPacket small).busy = true ∧ small.busy = false ∧ small.cfg.memWords ≤ 256
      ∧ { small with schedule := [.host (.read 256)] }.schedule = .host (.read 256) :: [] := by decide +kernel

theorem witness_HostStepsKeepRspAndLatch :
    (∃ t, hostTurn .readRsp (busyWith laddPacket small) = .next t) ∧ (∃ t, hostTurn (.write 255 1) small = .next t)
      ∧ (busyWith laddPacket small).busy = true :=
  ⟨⟨_, rfl⟩, ⟨_, rfl⟩, rfl⟩

/-- A packet for each clause: reserved opcode; a must-be-zero word; L = 5 and W = 65; one word past MEM; a partial
overlap; legal up to the last word. -/
theorem witness_ChecksInFixedOrder :
    decode badPacket = .reservedOpcode 4
      ∧ ¬ (Instr.lsub { lb 5 0x20 0x10 0x18 with mbz9 := 1 }).ReservedZero
      ∧ ((Instr.lsub (lb 5 0xFD 0x10 0x18)).ReservedZero ∧ ¬ (Instr.lsub (lb 5 0xFD 0x10 0x18)).ShapeLegal)
      ∧ ((Instr.bktacc (ba 65 0x80 0x82 0xA0 5 3 1)).ReservedZero
          ∧ ¬ (Instr.bktacc (ba 65 0x80 0x82 0xA0 5 3 1)).ShapeLegal)
      ∧ ((Instr.ladd (lb 4 0xFD 0xFE 0x18)).WellFormed ∧ ¬ RegionsInside 256 (.ladd (lb 4 0xFD 0xFE 0x18)))
      ∧ ((Instr.ladd (lb 4 0x12 0x10 0x18)).WellFormed ∧ RegionsInside 256 (.ladd (lb 4 0x12 0x10 0x18))
          ∧ ¬ RegionsCompatible (.ladd (lb 4 0x12 0x10 0x18)))
      ∧ Legal 256 (.ladd (lb 4 0xFC 0x10 0x18))
      ∧ ∀ i ∈ [Instr.lsub { lb 5 0x20 0x10 0x18 with mbz9 := 1 }, .lsub (lb 5 0xFD 0x10 0x18),
          .bktacc (ba 65 0x80 0x82 0xA0 5 3 1), .ladd (lb 4 0xFD 0xFE 0x18), .ladd (lb 4 0x12 0x10 0x18),
          .ladd (lb 4 0xFC 0x10 0x18)],
        decode (encode i) = .command i ∧ (busyWith (encode i) small).latch = some (encode i) :=
  ⟨by decide, by decide, by decide, by decide, by decide, by decide, by decide, by decide +kernel⟩

/-- A rejected command and a reserved opcode. -/
theorem witness_RejectionLeavesOnlyStatus :
    (∀ i, decode (encode (.ladd (lb 4 0xFD 0x10 0x18))) = .command i → ¬ Legal 256 i)
      ∧ (∀ i, decode badPacket = .command i → ¬ Legal 256 i) ∧ small.cfg.memWords = 256
      ∧ (busyWith badPacket small).latch = some badPacket := by
  refine ⟨fun i h => ?_, fun i h => ?_, by decide +kernel, rfl⟩
  · rw [show decode (encode (.ladd (lb 4 0xFD 0x10 0x18))) = .command (.ladd (lb 4 0xFD 0x10 0x18)) by decide] at h
    cases h
    decide
  · rw [show decode badPacket = .reservedOpcode 4 by decide] at h
    cases h

theorem witness_CommandWritesOnlyItsRegions :
    (∃ t, exec (.ladd (lb 4 0x30 0x28 0x2C)) p4 = .next t) ∧ ¬ InRegion 0 ⟨0x30, 4⟩
      ∧ (∃ t, exec (.ladd (lb 4 0xFD 0x28 0x2C)) p4 = .next t) ∧ ¬ Legal 256 (.ladd (lb 4 0xFD 0x28 0x2C)) :=
  ⟨⟨_, rfl⟩, by decide, ⟨_, rfl⟩, by decide⟩

/-- Two memories that differ in a word the command does not read. -/
theorem witness_CommandReadsOnlyItsRegions :
    let other : State := { p4 with mem := writeWord p4.mem 0xF0 1 }
    p4.cfg = other.cfg ∧ Legal p4.cfg.memWords (.ladd (lb 4 0x30 0x28 0x2C)) ∧ p4.mem ≠ other.mem
      ∧ ∀ x ∈ [(⟨0x28, 4⟩ : Region), ⟨0x2C, 4⟩], ∀ a, InRegion a x → readByte p4.mem a = readByte other.mem a := by
  refine ⟨rfl, by decide +kernel, by decide +kernel, fun x hx a ha => ?_⟩
  have h : a < 0x780 := by simp only [List.mem_cons, List.not_mem_nil, or_false] at hx; rcases hx with rfl | rfl <;>
    (simp only [InRegion] at ha; omega)
  simp only [readByte_writeWord]
  rw [if_neg (by omega)]

theorem witness_CommandIgnoresRspAndHost :
    p4.cfg = { p4 with rsp := 0x600, hostLog := [.word 1] }.cfg
      ∧ p4.mem = { p4 with rsp := 0x600, hostLog := [.word 1] }.mem
      ∧ ∃ t, exec (.ladd (lb 4 0x30 0x28 0x2C)) p4 = .next t := ⟨rfl, rfl, _, rfl⟩

/-- MONTMUL for the second and third clause, LCMP for the fourth, a rejected LADD for the last. -/
theorem witness_RspFieldsAfterCommand :
    (∃ t, exec (.montmul (mm 4 0x30 0x28 0x2C)) p4 = .next t)
      ∧ after (exec (.lcmp (lc 4 0x28 0x2C)) p4) (fun t => rspStatus t.rsp) = some 0
      ∧ after (exec (.ladd (lb 4 0xFD 0x28 0x2C)) p4) (fun t => rspStatus t.rsp) = some 5 :=
  ⟨⟨_, rfl⟩, by decide +kernel, by decide +kernel⟩

/-- Every clause, with bases far outside MEM where a region is empty. -/
theorem witness_ZeroCountsChangeNothing :
    Legal 256 (.bmontmul (bm 4 (-1) (-1) (-1) 0)) ∧ Legal 256 (.bmontmul (bm 0 (-1) (-1) (-1) (-1)))
      ∧ Legal 256 (.nttbfly (nb 6 (-1) (-1) (-1) (-1) (-1) 1 0))
      ∧ Legal 256 (.bktacc (ba 2 0x80 (-1) (-1) 0 3 1)) ∧ Legal 256 (.bktacc (ba 2 (-1) 0x90 0xA0 5 0 1))
      ∧ Legal 256 (.bktacc (ba 2 (-1) 0x90 (-1) 5 3 0)) ∧ Legal 256 (.bktacc (ba 0 0x80 0x90 0xA0 5 3 1)) :=
  ⟨by decide, by decide, by decide, by decide, by decide, by decide, by decide⟩

theorem witness_CarryChainTotality : ([-1, -1, -1, -1] : Limbs).length = ([1, 0, 0, 0] : Limbs).length := rfl

theorem witness_CompareDecidesOrder : m1.length = m2.length := rfl

theorem witness_LaddAddsLimbs : Legal p4.cfg.memWords (.ladd (lb 4 0xFC 0x28 0xFC)) := by decide +kernel

theorem witness_LsubSubtractsLimbs : Legal p4.cfg.memWords (.lsub (lb 6 0xFA 0x28 0xFA)) := by decide +kernel

theorem witness_LcmpCompares : Legal p4.cfg.memWords (.lcmp (lc 6 0xFA 0xF9)) := by decide +kernel

theorem witness_SchoolbookMulIsExact : modulus.length = m1.length := rfl

/-- Shorter than `t`, and as long as it. -/
theorem witness_MontIterationDropsTopCarry :
    modulus.length ≤ (m1 ++ m2).length ∧ modulus.length ≤ m1.length := by decide

/-- The scenario modulus meets the contract, with reduced operands, and with the weakened condition (iii). -/
theorem witness_MontgomeryContract :
    MontModulus 4 modulus mu ∧ m1.length = 4 ∧ m2.length = 4 ∧ (val m1 < val modulus ∧ val m2 < val modulus)
      ∧ ([-1, -1, -1, -1] : Limbs).length = 4
      ∧ val [-1, -1, -1, -1] * val m1 < val modulus * 2 ^ (64 * 4) ∧ ¬ val [-1, -1, -1, -1] < val modulus := by
  decide +kernel

/-- An even modulus. -/
theorem witness_WrongMuStaysReduced :
    ([8, 0, 0, 0] : Limbs).length = 4 ∧ 2 * val [8, 0, 0, 0] ≤ 2 ^ (64 * 4) ∧ Reduced 4 [8, 0, 0, 0] [7, 0, 0, 0]
      ∧ Reduced 4 [8, 0, 0, 0] [5, 0, 0, 0] := by decide +kernel

theorem witness_MontgomeryRoundTrip :
    MontModulus 4 modulus mu ∧ 63 < val modulus ∧ Reduced 4 modulus m1 ∧ Reduced 4 modulus m2 := by decide +kernel

theorem witness_MontmulWritesMontMul : Legal p4.cfg.memWords (.montmul (mm 4 0xFC 0x28 0x28)) := by decide +kernel

theorem witness_MontmulFieldProduct :
    Legal p4.cfg.memWords (.montmul (mm 4 0x30 0x28 0x2C)) ∧ readWords p4.mem 0 4 = modulus
      ∧ MontModulus 4 (readWords p4.mem 0 4) mu ∧ val (readWords p4.mem 0x28 4) < val (readWords p4.mem 0 4)
      ∧ val (readWords p4.mem 0x2C 4) < val (readWords p4.mem 0 4) := by decide +kernel

theorem witness_BatchConsistency :
    Legal p4.cfg.memWords (.bmontmul (bm 6 0xF4 0x60 0xF4 2)) ∧ (bm 6 0xF4 0x60 0xF4 2).hdr.supportedLimbs
      ∧ Legal p4.cfg.memWords (.bmontmul (bm 4 0xF8 0x60 0xF8 2)) ∧ (bm 4 0xF8 0x60 0xF8 2).hdr.supportedLimbs := by
  decide +kernel

theorem witness_BatchZeroFill :
    Legal p4.cfg.memWords (.bmontmul (bm 5 0xF6 0x40 0x50 2)) ∧ ¬ (bm 5 0xF6 0x40 0x50 2).hdr.supportedLimbs
      ∧ 0 < 2 * 5 := by decide +kernel

theorem witness_ModAddIsFieldAddition :
    m1.length = modulus.length ∧ m2.length = modulus.length ∧ val m1 < val modulus ∧ val m2 < val modulus := by
  decide +kernel

theorem witness_ModSubIsFieldSubtraction :
    m1.length = modulus.length ∧ m2.length = modulus.length ∧ val m1 < val modulus ∧ val m2 < val modulus := by
  decide +kernel

theorem witness_ButterflyFieldMeaning : MontModulus 4 [7, 0, 0, 0] 0x9249249249249249 := by decide +kernel

theorem witness_ButterflySelfConsistency :
    MontModulus 4 modulus mu ∧ Reduced 4 modulus m1 ∧ Reduced 4 modulus m2 ∧ Reduced 4 modulus m3 := by decide +kernel

/-- In place, one element up to the last word of MEM, and outside both outputs. -/
theorem witness_NttbflyWritesButterflies :
    Legal p4.cfg.memWords (.nttbfly (nb 4 0xFC 0x48 0xFC 0x48 0x50 1 1)) ∧ ¬ InRegion 0 ⟨0xFC, 1 * 4⟩
      ∧ ¬ InRegion 0 ⟨0x48, 1 * 4⟩ := by decide +kernel

theorem witness_NttbflyIgnoresSecondTwiddle :
    (⟨0x420, 0x40, 0x48, 0x40, 0x48, 0x50, 0xDEADBEEF, 2, 0, mu⟩ : Packet).op = 0x20 := by decide

/-- The window at 0, between, and at 64. -/
theorem witness_DigitIsLowWindow :
    (windowBits (ba 0 0x80 0x90 0xA0 5 3 1).hdr = 0 ∧ windowBits (ba 0 0x80 0x90 0xA0 5 3 1).hdr ≤ 64
        ∧ Legal p4.cfg.memWords (.bktacc (ba 0 0x80 0x90 0xA0 5 3 1)))
      ∧ windowBits (ba 2 0x80 0x90 0xA0 5 3 1).hdr ≤ 64
      ∧ (windowBits (ba 64 0x80 0x90 0xA0 5 3 1).hdr = 64 ∧ windowBits (ba 64 0x80 0x90 0xA0 5 3 1).hdr ≤ 64) := by
  decide +kernel

theorem witness_BucketSums :
    Legal p4.cfg.memWords (.bktacc (ba 64 0xFA 0x90 0xA0 5 3 2)) ∧ 1 ≤ 3 ∧ 1 < (2 : Word).toNat := by decide +kernel

/-- ACC of zeros; NUM_BUCKETS = 2^W - 1. -/
theorem witness_BucketConservation :
    let s := machine [(0x80, [0, 0, 0]), (0x90, [1, 0, 2, 3, 1]), (0xA0, [10, 20, 30, 40, 50])]
    let f := ba 2 0x80 0x90 0xA0 5 3 1
    Legal s.cfg.memWords (.bktacc f)
      ∧ (∀ k < f.numBuckets.toNat * f.coordSize.toNat, readWord s.mem (f.acc.toNat + k) = 0)
      ∧ (∃ t, exec (.bktacc f) s = .next t) ∧ 0 < f.coordSize.toNat
      ∧ 2 ^ windowBits f.hdr - 1 ≤ f.numBuckets.toNat := by
  refine ⟨by decide +kernel, by decide +kernel, ⟨_, rfl⟩, by decide, by decide⟩

end Sys2Proof.Tests
end

section
/-! The carry chains (40_limb_arithmetic.md R91, R92, R99): each loop conserves value. What the limbs of the
result hold, plus the carry out (less the borrow out) at the weight of the next limb, is the sum (the difference)
of the operands and the carry (borrow) in. -/

namespace Sys2Proof.Machine

/-- A limb sequence is the canonical one of any number its value is the residue of (00_scope.md R14). -/
theorem eq_limbsOf_of_val {a : Limbs} {L v : Nat} (hl : a.length = L) (hv : val a = v % 2 ^ (64 * L)) :
    a = limbsOf L v :=
  val_inj (by rw [hl, limbsOf_length]) (by rw [hv, val_limbsOf])

theorem two_pow_limbs_succ (n : Nat) : 2 ^ (64 * (n + 1)) = 2 ^ 64 * 2 ^ (64 * n) := by
  rw [Nat.mul_succ, Nat.add_comm, pow_add]

/-! ### One limb -/

/-- One step of AddWithCarry: the limb and the carry are the two digits of the limb sum (40_limb_arithmetic.md R91). -/
theorem limb_add_carry (x y : Word) (c : Bool) :
    (BitVec.ofNat 64 (x.toNat + y.toNat + c.toNat)).toNat
        + 2 ^ 64 * (decide (2 ^ 64 ≤ x.toNat + y.toNat + c.toNat)).toNat
      = x.toNat + y.toNat + c.toNat := by
  have hx := x.isLt
  have hy := y.isLt
  have hc := c.toNat_le
  rw [BitVec.toNat_ofNat]
  by_cases carry : 2 ^ 64 ≤ x.toNat + y.toNat + c.toNat
  · rw [decide_eq_true carry, Bool.toNat_true]; omega
  · rw [decide_eq_false carry, Bool.toNat_false]; omega

/-- One step of SubWithBorrow: the borrow restores what the limb difference lacks (40_limb_arithmetic.md R92). -/
theorem limb_sub_borrow (x y : Word) (w : Bool) :
    (BitVec.ofInt 64 ((x.toNat : Int) - (y.toNat : Int) - (w.toNat : Int))).toNat + y.toNat + w.toNat
      = x.toNat + 2 ^ 64 * (decide ((x.toNat : Int) - (y.toNat : Int) - (w.toNat : Int) < 0)).toNat := by
  have hx := x.isLt
  have hy := y.isLt
  have hw := w.toNat_le
  rw [BitVec.toNat_ofInt]
  by_cases borrow : (x.toNat : Int) - (y.toNat : Int) - (w.toNat : Int) < 0
  · rw [decide_eq_true borrow, Bool.toNat_true]; omega
  · rw [decide_eq_false borrow, Bool.toNat_false]; omega

/-! ### The loops -/

theorem addLoop_val (a b : Limbs) (c : Bool) (h : a.length = b.length) :
    val (addLoop a b c).1 + 2 ^ (64 * a.length) * (addLoop a b c).2.toNat = val a + val b + c.toNat := by
  induction a generalizing b c with
  | nil =>
    obtain rfl : b = [] := List.length_eq_zero_iff.mp h.symm
    simp [addLoop, val]
  | cons x a ih =>
    cases b with
    | nil => simp at h
    | cons y b =>
      have limb := limb_add_carry x y c
      have rest := ih b (decide (2 ^ 64 ≤ x.toNat + y.toNat + c.toNat)) (by simpa using h)
      simp only [addLoop, val, List.length_cons, two_pow_limbs_succ]
      linear_combination limb + 2 ^ 64 * rest

theorem subLoop_val (a b : Limbs) (w : Bool) (h : a.length = b.length) :
    val (subLoop a b w).1 + val b + w.toNat = val a + 2 ^ (64 * a.length) * (subLoop a b w).2.toNat := by
  induction a generalizing b w with
  | nil =>
    obtain rfl : b = [] := List.length_eq_zero_iff.mp h.symm
    simp [subLoop, val]
  | cons x a ih =>
    cases b with
    | nil => simp at h
    | cons y b =>
      have limb := limb_sub_borrow x y w
      have rest := ih b (decide ((x.toNat : Int) - (y.toNat : Int) - (w.toNat : Int) < 0)) (by simpa using h)
      simp only [subLoop, val, List.length_cons, two_pow_limbs_succ]
      linear_combination limb + 2 ^ 64 * rest

/-! ### AddWithCarry and SubWithBorrow -/

section
variable {a b : Limbs} (h : a.length = b.length)
include h

theorem addWithCarry_val_lt : val (addWithCarry a b).1 < 2 ^ (64 * a.length) := by
  simpa [h] using val_lt (addWithCarry a b).1

theorem subWithBorrow_val_lt : val (subWithBorrow a b).1 < 2 ^ (64 * a.length) := by
  simpa [h] using val_lt (subWithBorrow a b).1

theorem addWithCarry_val :
    val (addWithCarry a b).1 + 2 ^ (64 * a.length) * (addWithCarry a b).2.toNat = val a + val b :=
  addLoop_val a b false h

theorem subWithBorrow_val :
    val (subWithBorrow a b).1 + val b = val a + 2 ^ (64 * a.length) * (subWithBorrow a b).2.toNat :=
  subLoop_val a b false h

/-- The result and the carry are remainder and quotient of the sum. -/
theorem addWithCarry_divMod :
    (val a + val b) / 2 ^ (64 * a.length) = (addWithCarry a b).2.toNat
      ∧ (val a + val b) % 2 ^ (64 * a.length) = val (addWithCarry a b).1 :=
  (Nat.div_mod_unique (by positivity)).mpr ⟨addWithCarry_val h, addWithCarry_val_lt h⟩

theorem addWithCarry_eq_limbsOf : (addWithCarry a b).1 = limbsOf a.length (val a + val b) :=
  eq_limbsOf_of_val (by simp [h]) (addWithCarry_divMod h).2.symm

/-- The difference as a residue in the integers, where it may be negative. -/
theorem subWithBorrow_val_emod :
    ((val a : Int) - (val b : Int)) % ((2 ^ (64 * a.length) : Nat) : Int) = (val (subWithBorrow a b).1 : Int) := by
  have conserved : (val a : Int) - (val b : Int)
      = val (subWithBorrow a b).1 - ((2 ^ (64 * a.length) : Nat) : Int) * ((subWithBorrow a b).2.toNat : Int) := by
    have := congrArg (Nat.cast : Nat → Int) (subWithBorrow_val h)
    rw [Nat.cast_add, Nat.cast_add, Nat.cast_mul] at this
    linear_combination -this
  rw [conserved, Int.sub_mul_emod_self_left]
  exact Int.emod_eq_of_lt (Int.natCast_nonneg _) (Int.ofNat_lt.mpr (subWithBorrow_val_lt h))

theorem subWithBorrow_eq_limbsOf :
    (subWithBorrow a b).1
      = limbsOf a.length (((val a : Int) - (val b : Int)) % ((2 ^ (64 * a.length) : Nat) : Int)).toNat := by
  rw [subWithBorrow_val_emod h, Int.toNat_natCast]
  exact eq_limbsOf_of_val (by simp [h]) (Nat.mod_eq_of_lt (subWithBorrow_val_lt h)).symm

/-- A borrow is exactly what a result below `2^(64L)` needs, when the difference is negative. -/
theorem subWithBorrow_borrow_iff : (subWithBorrow a b).2 = true ↔ val a < val b := by
  have conserved := subWithBorrow_val h
  have bound := subWithBorrow_val_lt h
  cases hw : (subWithBorrow a b).2 with
  | false =>
    rw [hw, Bool.toNat_false, Nat.mul_zero] at conserved
    simp only [Bool.false_eq_true, false_iff]
    omega
  | true =>
    rw [hw, Bool.toNat_true, Nat.mul_one] at conserved
    simp only [true_iff]
    omega

end

/-- Settles O30: value is conserved along both carry chains, and the bound on the result leaves one way to split it
into limbs and carry. -/
theorem carryChainTotality : Obligations.CarryChainTotality := by
  unfold Obligations.CarryChainTotality
  intro a b h
  exact ⟨⟨addWithCarry_eq_limbsOf h, (addWithCarry_divMod h).1.symm⟩, subWithBorrow_eq_limbsOf h,
    subWithBorrow_borrow_iff h⟩

end Sys2Proof.Machine
end

section
/-! The unused second twiddle of NTTBFLY (43_ntt_butterfly.md R146): the decoder passes PKT[6] on as `twIm`, and
neither the checks nor the rule reads that field. That the two states differ in the latch does not show either: a
command is given its packet, reads the latch nowhere, and leaves it empty. -/

namespace Sys2Proof.Machine

/-! ### A command and the latch -/

/-- A command has the same effect whatever the latch holds when it runs (10_state.md R33). -/
theorem exec_setLatch (i : Instr) (s : State) (l : Option Packet) : exec i { s with latch := l } = exec i s := by
  have rule_setLatch : ruleOf i { s with latch := l } = ruleOf i s := by cases i <;> rfl
  cases h : firstFailure s.cfg.memWords i with
  | some st => rw [exec_reject h, exec_reject (s := { s with latch := l }) h]; rfl
  | none => rw [exec_rule h, exec_rule (s := { s with latch := l }) h, rule_setLatch]

/-- A command always answers a next state: it is rejected or it completes (10_state.md R33). -/
theorem exec_total (i : Instr) (s : State) : ∃ t, exec i s = .next t := by
  cases h : firstFailure s.cfg.memWords i with
  | some st => exact ⟨_, exec_reject h⟩
  | none => exact ⟨_, exec_rule h⟩

/-- The ENGINE's turn on a latched command is that command, run on what the state holds beside the latch. -/
theorem engineTurn_of_decode {pkt : Packet} {i : Instr} (h : decode pkt = .command i) (s : State) :
    engineTurn { s with latch := some pkt } = exec i s := by
  rw [← exec_setLatch i s (some pkt)]
  simp only [engineTurn, h]

/-! ### NTTBFLY and PKT[6] -/

/-- A packet with OP = 0x20 is NTTBFLY (30_encoding.md R70). -/
theorem decode_of_op_nttbfly {p : Packet} (h : p.op = 0x20) : decode p = .command (.nttbfly (decodeNB p)) := by
  have hm : mnemonicOf p.op = some .nttbfly := by rw [h]; rfl
  simp only [decode, hm]

/-- PKT[6] is TW_IM and no other field (30_encoding.md R67). -/
theorem decodeNB_setW6 (p : Packet) (x : Word) :
    decodeNB { p with w6 := x } = { decodeNB p with twIm := x } := rfl

/-- No check reads TW_IM: it is not a must-be-zero word, and it gives no region (30_encoding.md R73). -/
theorem firstFailure_setTwIm (n : Nat) (f : FormatNB) (x : Word) :
    firstFailure n (.nttbfly { f with twIm := x }) = firstFailure n (.nttbfly f) := rfl

/-- The rule does not read TW_IM (43_ntt_butterfly.md R145). -/
theorem ruleOf_nttbfly_setTwIm (f : FormatNB) (x : Word) :
    ruleOf (.nttbfly { f with twIm := x }) = ruleOf (.nttbfly f) := rfl

/-- NTTBFLY, rejected or completed, does not read TW_IM. -/
theorem exec_nttbfly_setTwIm (f : FormatNB) (x : Word) (s : State) :
    exec (.nttbfly { f with twIm := x }) s = exec (.nttbfly f) s := by
  rw [exec_eq, exec_eq, firstFailure_setTwIm, ruleOf_nttbfly_setTwIm]

/-- Settles O49: both packets decode to NTTBFLY with all fields but TW_IM the same, and NTTBFLY does not read TW_IM. -/
theorem nttbflyIgnoresSecondTwiddle : Obligations.NttbflyIgnoresSecondTwiddle := by
  unfold Obligations.NttbflyIgnoresSecondTwiddle
  intro p x s hop
  have hdecode := decode_of_op_nttbfly hop
  have hdecode' : decode { p with w6 := x } = .command (.nttbfly { decodeNB p with twIm := x }) := by
    rw [← decodeNB_setW6]; exact decode_of_op_nttbfly hop
  rw [engineTurn_of_decode hdecode, engineTurn_of_decode hdecode', exec_nttbfly_setTwIm]
  exact ⟨rfl, exec_total _ _⟩

end Sys2Proof.Machine
end

section
/-! Legal commands complete (60_exceptions.md R183 to R187): the checks on the regions as the conditions `Legal` gives
them, and what a command that passes all checks answers. -/

namespace Sys2Proof.Machine

/-- Check (4) passes exactly if every region of the command is inside MEM (60_exceptions.md R186). -/
theorem rangesOk_iff (n : Nat) (i : Instr) : rangesOk n (regionsOf i) = true ↔ RegionsInside n i := by
  cases i <;>
    simp only [rangesOk, regionsOf, RegionTable.all, List.cons_append, List.nil_append, List.all_cons, List.all_nil,
      Bool.and_true, Bool.and_eq_true, inRange_iff, RegionsInside, Inside]

theorem not_overlap_iff (b₁ l₁ b₂ l₂ : Nat) :
    (!(⟨b₁, l₁⟩ : Region).overlap ⟨b₂, l₂⟩) = true ↔ Apart b₁ l₁ b₂ l₂ := by
  rw [Bool.not_eq_true', overlap_eq_false_iff]

theorem not_overlap_or_coincide_iff (out inp len : Nat) :
    (!(⟨out, len⟩ : Region).overlap ⟨inp, len⟩ || (⟨out, len⟩ : Region).coincide ⟨inp, len⟩) = true
      ↔ InPlaceOrApart out inp len := by
  rw [Bool.or_eq_true, not_overlap_iff, coincide_iff, and_iff_left rfl, or_comm]

/-- Check (5) passes exactly if the command's regions overlap in no forbidden way (60_exceptions.md R187). -/
theorem overlapsOk_iff (i : Instr) : overlapsOk (regionsOf i) = true ↔ RegionsCompatible i := by
  cases i <;>
    simp only [overlapsOk, regionsOf, disjointList, List.cons_append, List.nil_append, List.all_cons, List.all_nil,
      Bool.and_true, Bool.true_and, Bool.and_eq_true, not_overlap_or_coincide_iff, not_overlap_iff, RegionsCompatible,
      and_assoc]
  case nttbfly f =>
    constructor
    · rintro ⟨outs, evenEven, oddEven, evenOdd, oddOdd, evenTw, oddTw, mods⟩
      exact ⟨outs, evenEven, evenOdd, evenTw, oddEven, oddOdd, oddTw, mods⟩
    · rintro ⟨outs, evenEven, evenOdd, evenTw, oddEven, oddOdd, oddTw, mods⟩
      exact ⟨outs, evenEven, oddEven, evenOdd, oddOdd, evenTw, oddTw, mods⟩

/-- A legal command fails no check (60_exceptions.md R183). -/
theorem firstFailure_of_legal {n : Nat} {i : Instr} (h : Legal n i) : firstFailure n i = none := by
  obtain ⟨⟨hreserved, hshape⟩, hinside, hcompatible⟩ := h
  obtain ⟨hlimbs, hwindow⟩ := (shapeOk_iff i).mpr hshape
  simp only [firstFailure, (reservedOk_iff i).mpr hreserved, hlimbs, hwindow, (rangesOk_iff n i).mpr hinside,
    (overlapsOk_iff i).mpr hcompatible, Bool.not_true, Bool.false_eq_true, if_false]

/-- A legal command completes: its rule gives the next state. -/
theorem exec_of_legal {i : Instr} {s : State} (h : Legal s.cfg.memWords i) : exec i s = .next (ruleOf i s) :=
  exec_rule (firstFailure_of_legal h)

end Sys2Proof.Machine
end

section
/-! The digit of BKTACC (44_msm_bucket.md R161): the index word modulo 2^W. A window of 0 bits makes every digit 0, so
every point is skipped. -/

namespace Sys2Proof.Machine

/-! ### The digit -/

/-- For W up to 64 the mask is the number `2^W - 1`, cut off nowhere. -/
theorem windowMask_toNat {W : Nat} (hW : W ≤ 64) : (windowMask W).toNat = 2 ^ W - 1 := by
  have hpow : 2 ^ W ≤ 2 ^ 64 := Nat.pow_le_pow_right (by decide) hW
  have hpos : 0 < 2 ^ W := Nat.two_pow_pos W
  rw [windowMask, BitVec.toNat_ofNat, Nat.mod_eq_of_lt (by omega)]

section
variable {f : FormatBA} (m : Memory) (k : Nat)

theorem digitOf_eq_and (hW : windowBits f.hdr ≤ 64) :
    digitOf f m k = (readWord m (f.idx.toNat + k)).toNat &&& (2 ^ windowBits f.hdr - 1) := by
  rw [digitOf, BitVec.toNat_and, windowMask_toNat hW]

theorem digitOf_eq_mod (hW : windowBits f.hdr ≤ 64) :
    digitOf f m k = (readWord m (f.idx.toNat + k)).toNat % 2 ^ windowBits f.hdr := by
  rw [digitOf_eq_and m k hW, Nat.and_two_pow_sub_one_eq_mod]

/-- A window of no bits leaves nothing of the index word. -/
theorem digitOf_eq_zero (h0 : windowBits f.hdr = 0) : digitOf f m k = 0 := by
  rw [digitOf_eq_mod m k (by omega), h0, pow_zero, Nat.mod_one]

/-- A window of 64 bits leaves the index word as it is. -/
theorem digitOf_eq_word (h64 : windowBits f.hdr = 64) :
    digitOf f m k = (readWord m (f.idx.toNat + k)).toNat := by
  rw [digitOf_eq_mod m k h64.le, h64, Nat.mod_eq_of_lt (readWord m _).isLt]

end

/-! ### Digit 0 accumulates nothing -/

/-- A point with digit 0 is skipped (44_msm_bucket.md R160). -/
theorem addPoint_of_digit_zero {f : FormatBA} {pre : Memory} {k : Nat} (h : digitOf f pre k = 0) (m : Memory) :
    addPoint f pre k m = m := by
  rcases addPoint_cases f pre k m with ⟨hskip, -⟩ | ⟨-, hne, -⟩
  · exact hskip
  · exact absurd h hne

theorem addPoints_of_digits_zero {f : FormatBA} {pre : Memory} {n : Nat} (h : ∀ k < n, digitOf f pre k = 0)
    (m : Memory) : addPoints f pre n m = m := by
  induction n with
  | zero => rfl
  | succ n ih =>
    rw [addPoints, ih fun k hk => h k (by omega), addPoint_of_digit_zero (h n (by omega))]

theorem ruleOf_bktacc_mem (f : FormatBA) (s : State) :
    (ruleOf (.bktacc f) s).mem = addPoints f s.mem f.numPoints.toNat s.mem := rfl

/-! ### The statement -/

/-- Settles O50: the mask keeps the residue modulo 2^W, which is 0 for W = 0, so that every point is skipped, and the
whole word for W = 64. -/
theorem digitIsLowWindow : Obligations.DigitIsLowWindow := by
  unfold Obligations.DigitIsLowWindow
  intro f m k hW
  refine ⟨digitOf_eq_and m k hW, digitOf_eq_mod m k hW, fun h0 => ⟨digitOf_eq_zero m k h0, fun s hlegal => ?_⟩,
    digitOf_eq_word m k⟩
  refine ⟨_, exec_of_legal hlegal, ?_⟩
  rw [ruleOf_bktacc_mem]
  exact addPoints_of_digits_zero (fun j _ => digitOf_eq_zero s.mem j h0) s.mem

end Sys2Proof.Machine
end

section
/-! Rejections (60_exceptions.md R181): a packet that fails a check is rejected with a status that the packet and
MEM_WORDS decide, so every state they stand in is rejected alike. -/

namespace Sys2Proof.Machine

/-! ### The ENGINE's turn on a latched packet -/

section
variable {s : State} {pkt : Packet}

theorem engineTurn_of_command {i : Instr} (hlatch : s.latch = some pkt) (hdecode : decode pkt = .command i) :
    engineTurn s = exec i s := by
  simp only [engineTurn, hlatch, hdecode]

/-- A reserved opcode is rejected before any check of a command (60_exceptions.md R184). -/
theorem engineTurn_of_reservedOpcode {op : Field8} (hlatch : s.latch = some pkt)
    (hdecode : decode pkt = .reservedOpcode op) : engineTurn s = .next (reject .errOpcode s) := by
  simp only [engineTurn, hlatch, hdecode]

end

/-! ### The status of a rejection -/

/-- Only a legal command passes all the checks (60_exceptions.md R183). -/
theorem legal_of_firstFailure {n : Nat} {i : Instr} (h : firstFailure n i = none) : Legal n i := by
  unfold firstFailure at h
  split_ifs at h with hreserved hlimbs hwindow hranges hoverlaps
  rw [Bool.not_eq_true', Bool.not_eq_false] at hreserved hlimbs hwindow hranges hoverlaps
  exact ⟨⟨(reservedOk_iff i).mp hreserved, (shapeOk_iff i).mp ⟨hlimbs, hwindow⟩⟩, (rangesOk_iff n i).mp hranges,
    (overlapsOk_iff i).mp hoverlaps⟩

/-- The checks give a command a failure exactly if it is not legal. -/
theorem firstFailure_eq_none_iff {n : Nat} {i : Instr} : firstFailure n i = none ↔ Legal n i :=
  ⟨legal_of_firstFailure, firstFailure_of_legal⟩

/-- A packet that is no legal command has one status, other than OK, with which every state of its MEM_WORDS rejects
it. -/
theorem exists_engineTurn_eq_reject {n : Nat} {pkt : Packet}
    (h : ∀ i, decode pkt = .command i → ¬ Legal n i) :
    ∃ st, st ≠ .ok ∧ ∀ s : State, s.cfg.memWords = n → s.latch = some pkt →
      engineTurn s = .next (reject st s) := by
  cases hdecode : decode pkt with
  | reservedOpcode op =>
    exact ⟨.errOpcode, by decide, fun s _ hlatch => engineTurn_of_reservedOpcode hlatch hdecode⟩
  | command i =>
    have hfails : firstFailure n i ≠ none := fun hnone => h i hdecode (firstFailure_eq_none_iff.mp hnone)
    obtain ⟨st, hst⟩ := Option.ne_none_iff_exists'.mp hfails
    refine ⟨st, (firstFailure_ne hst).1, fun s hcfg hlatch => ?_⟩
    rw [engineTurn_of_command hlatch hdecode, exec_reject (hcfg ▸ hst)]

/-! ### RSP after a rejection -/

/-- A rejection has no carry and no comparison, so RSP holds the code alone (10_state.md R23). -/
theorem rspWord_of_rejection (st : Status) : rspWord st false none = (statusCode st).setWidth 64 := by
  cases st <;> decide

/-- The six codes of a rejection (60_exceptions.md R182). -/
theorem statusCode_mem_of_ne_ok {st : Status} (h : st ≠ .ok) :
    statusCode st ∈ [(0x01 : Field8), 0x02, 0x03, 0x04, 0x05, 0x06] := by
  cases st with
  | ok => exact absurd rfl h
  | errOpcode | errReserved | errLimbs | errWindow | errRange | errOverlap => decide

/-- Settles O24: the status is chosen before the state, and its rejection writes RSP and the latch alone. -/
theorem rejectionLeavesOnlyStatus : Obligations.RejectionLeavesOnlyStatus := by
  unfold Obligations.RejectionLeavesOnlyStatus
  intro n pkt h
  obtain ⟨st, hne, hreject⟩ := exists_engineTurn_eq_reject h
  refine ⟨statusCode st, statusCode_mem_of_ne_ok hne, fun s hcfg hlatch => ?_⟩
  rw [hreject s hcfg hlatch, reject, rspWord_of_rejection]

end Sys2Proof.Machine
end

section
/-! The encoding (30_encoding.md R60 to R71): the decoder and the encoder undo each other field by field. A mnemonic
says how to read the ten words as a command (`commandOf`); the decoder is that reading at the mnemonic of OP. -/

namespace Sys2Proof

/-! ### The opcode map -/

theorem mnemonicOf_opcodeOf (m : Mnemonic) : mnemonicOf (opcodeOf m) = some m := by
  cases m <;> rfl

/-- The two directions of the opcode map agree (30_encoding.md R70). -/
theorem mnemonicOf_eq_some_iff {op : Field8} {m : Mnemonic} : mnemonicOf op = some m ↔ opcodeOf m = op := by
  constructor
  · intro h
    unfold mnemonicOf at h
    split_ifs at h with h01 h02 h03 h10 h11 h20 h30 <;> cases h <;> exact Eq.symm ‹_›
  · rintro rfl
    exact mnemonicOf_opcodeOf m

/-- The reserved opcodes are those outside the map (30_encoding.md R71). -/
theorem mnemonicOf_eq_none_iff {op : Field8} :
    mnemonicOf op = none ↔ op ∉ [(0x01 : Field8), 0x02, 0x03, 0x10, 0x11, 0x20, 0x30] := by
  unfold mnemonicOf
  split_ifs <;> simp_all

/-! ### The header word -/

theorem decodeHeader_encodeHeader (m : Mnemonic) (h : Header) : decodeHeader (encodeHeader m h) = h := by
  have above_op (start len : Nat) (hstart : 8 ≤ start) : (encodeHeader m h).extractLsb' start len
      = (h.rsv0 ++ h.window ++ h.limbs).extractLsb' (start - 8) len := BitVec.extractLsb'_append_eq_of_le hstart
  have limbs : (encodeHeader m h).extractLsb' 8 8 = h.limbs :=
    (above_op 8 8 (by decide)).trans BitVec.extractLsb'_append_eq_right
  have window : (encodeHeader m h).extractLsb' 16 8 = h.window :=
    (above_op 16 8 (by decide)).trans <|
      (BitVec.extractLsb'_append_eq_of_le (by decide)).trans BitVec.extractLsb'_append_eq_right
  have rsv0 : (encodeHeader m h).extractLsb' 24 40 = h.rsv0 :=
    (above_op 24 40 (by decide)).trans <|
      (BitVec.extractLsb'_append_eq_of_le (by decide)).trans BitVec.extractLsb'_append_eq_left
  rw [decodeHeader, limbs, window, rsv0]

/-- A header word is the four fields it is read as (30_encoding.md R61). -/
theorem encodeHeader_decodeHeader {m : Mnemonic} {w : Word} (h : opcodeOf m = w.extractLsb' 0 8) :
    encodeHeader m (decodeHeader w) = w := by
  have rsv0_window : w.extractLsb' 24 40 ++ w.extractLsb' 16 8 = w.extractLsb' 16 48 :=
    BitVec.extractLsb'_append_extractLsb'_eq_extractLsb' rfl
  have above_op : w.extractLsb' 16 48 ++ w.extractLsb' 8 8 = w.extractLsb' 8 56 :=
    BitVec.extractLsb'_append_extractLsb'_eq_extractLsb' rfl
  have whole : w.extractLsb' 8 56 ++ w.extractLsb' 0 8 = w.extractLsb' 0 64 :=
    BitVec.extractLsb'_append_extractLsb'_eq_extractLsb' rfl
  simp only [encodeHeader, decodeHeader, h, rsv0_window, above_op, whole, BitVec.extractLsb'_eq_self]

/-! ### The ten words -/

/-- The command whose mnemonic is `m` and whose operands are those of the packet. -/
def commandOf (m : Mnemonic) (p : Packet) : Instr :=
  match m with
  | .ladd => .ladd (decodeLB p)
  | .lsub => .lsub (decodeLB p)
  | .lcmp => .lcmp (decodeLC p)
  | .montmul => .montmul (decodeMM p)
  | .bmontmul => .bmontmul (decodeBM p)
  | .nttbfly => .nttbfly (decodeNB p)
  | .bktacc => .bktacc (decodeBA p)

@[simp] theorem mnemonicOfInstr_commandOf (m : Mnemonic) (p : Packet) : mnemonicOfInstr (commandOf m p) = m := by
  cases m <;> rfl

theorem commandOf_encode (i : Instr) : commandOf (mnemonicOfInstr i) (encode i) = i := by
  cases i <;>
    simp only [mnemonicOfInstr, commandOf, encode, decodeLB, decodeLC, decodeMM, decodeBM, decodeNB, decodeBA,
      decodeHeader_encodeHeader, Instr.hdr]

theorem encode_commandOf {m : Mnemonic} {p : Packet} (h : opcodeOf m = p.op) : encode (commandOf m p) = p := by
  have header : encodeHeader m (decodeHeader p.w0) = p.w0 := encodeHeader_decodeHeader h
  cases m <;>
    simp only [commandOf, encode, mnemonicOfInstr, Instr.hdr, decodeLB, decodeLC, decodeMM, decodeBM, decodeNB,
      decodeBA, header]

theorem op_encode (i : Instr) : (encode i).op = opcodeOf (mnemonicOfInstr i) := by
  cases i <;> exact Laws.extract_opcode _ _

/-! ### The decoder -/

/-- What `decode` answers: the reading at the mnemonic of OP, or the reserved opcode. -/
theorem decode_cases (p : Packet) :
    (∃ m, opcodeOf m = p.op ∧ decode p = .command (commandOf m p))
      ∨ (p.op ∉ [(0x01 : Field8), 0x02, 0x03, 0x10, 0x11, 0x20, 0x30] ∧ decode p = .reservedOpcode p.op) := by
  cases h : mnemonicOf p.op with
  | none => exact .inr ⟨mnemonicOf_eq_none_iff.mp h, by simp only [decode, h]⟩
  | some m => exact .inl ⟨m, mnemonicOf_eq_some_iff.mp h, by cases m <;> simp only [decode, h, commandOf]⟩

theorem decode_of_opcode {m : Mnemonic} {p : Packet} (h : opcodeOf m = p.op) : decode p = .command (commandOf m p) := by
  have hm := mnemonicOf_eq_some_iff.mpr h
  cases m <;> simp only [decode, hm, commandOf]

/-- Every opcode of the map is outside the reserved ones. -/
theorem opcodeOf_mem (m : Mnemonic) :
    opcodeOf m ∈ [(0x01 : Field8), 0x02, 0x03, 0x10, 0x11, 0x20, 0x30] := by
  cases m <;> decide

/-! ### The statements -/

/-- Settles O1: the encoding's OP selects the command's own reading, and each reading takes back the words that the
encoder laid down. -/
theorem decodeEncodeRoundTrip : Obligations.DecodeEncodeRoundTrip := by
  unfold Obligations.DecodeEncodeRoundTrip
  intro i
  rw [decode_of_opcode (op_encode i).symm, commandOf_encode]

/-- Settles O2: a packet is the encoding of its own reading. -/
theorem encodeDecodeRoundTrip : Obligations.EncodeDecodeRoundTrip := by
  unfold Obligations.EncodeDecodeRoundTrip
  intro p i h
  rcases decode_cases p with ⟨m, hop, hdecode⟩ | ⟨-, hdecode⟩
  · obtain rfl : commandOf m p = i := Decoded.command.inj (hdecode.symm.trans h)
    exact encode_commandOf hop
  · exact Decoded.noConfusion (hdecode.symm.trans h)

/-- Settles O3: the decoder answers by the opcode map, whose domain is the seven opcodes. -/
theorem opcodeAloneSelectsCommand : Obligations.OpcodeAloneSelectsCommand := by
  unfold Obligations.OpcodeAloneSelectsCommand
  intro p
  rcases decode_cases p with ⟨m, hop, hdecode⟩ | ⟨hreserved, hdecode⟩
  · have hmem := hop ▸ opcodeOf_mem m
    refine ⟨iff_of_false (by simp [hdecode]) (not_not_intro hmem), fun i h => ?_, fun _ => ⟨_, hdecode⟩⟩
    obtain rfl : commandOf m p = i := Decoded.command.inj (hdecode.symm.trans h)
    rw [mnemonicOfInstr_commandOf, hop]
  · exact ⟨iff_of_true hdecode hreserved, fun i h => Decoded.noConfusion (hdecode.symm.trans h),
      fun hmem => absurd hmem hreserved⟩

/-- Settles O4, by evaluating the encoder on the two printed commands. -/
theorem workedEncodings : Obligations.WorkedEncodings := by
  unfold Obligations.WorkedEncodings
  exact ⟨by decide, by decide⟩

/-- Settles O5, by evaluating the decoder on the seven printed packets. -/
theorem printedPacketsDecode : Obligations.PrintedPacketsDecode := by
  unfold Obligations.PrintedPacketsDecode
  exact ⟨by decide, by decide, by decide, by decide, by decide, by decide, by decide⟩

end Sys2Proof
end

section
/-! What a command writes (20_memory.md R46): its rule changes MEM word by word, and every word it writes lies in an
output or in-out region of the command. Whatever writing one such word keeps, the command keeps. -/

namespace Sys2Proof.Machine

/-- The second memory comes from the first by writing words that lie in the regions. -/
inductive WritesIn (xs : List Region) (m : Memory) : Memory → Prop where
  | refl : WritesIn xs m m
  | word {m' : Memory} {x : Region} {p : Nat} (v : Word) (before : WritesIn xs m m') (hx : x ∈ xs)
      (hp : x.base ≤ p ∧ p < x.base + x.len) : WritesIn xs m (writeWord m' p v)

namespace WritesIn

variable {xs : List Region} {m m' : Memory} {x : Region}

/-! ### What such writing keeps -/

theorem era_eq (h : WritesIn xs m m') : m'.era = m.era := by
  induction h with
  | refl => rfl
  | word v _ _ _ ih => rw [writeWord_era, ih]

theorem wf (h : WritesIn xs m m') (hwf : m.wf) : m'.wf := by
  induction h with
  | refl => exact hwf
  | word v _ _ _ ih => exact writeWord_wf ih _ v

theorem cells_below {n : Nat} (h : WritesIn xs m m') (hxs : ∀ x ∈ xs, Inside n x.base x.len) (hm : m.Below (8 * n)) :
    m'.Below (8 * n) := by
  induction h with
  | refl => exact hm
  | word v _ hx hp ih =>
    have inside := hxs _ hx
    exact writeWord_below ih (by omega) v

/-- The frame: a byte that belongs to none of the regions reads as before. -/
theorem readByte_eq {a : Nat} (h : WritesIn xs m m') (ha : ∀ x ∈ xs, ¬ InRegion a x) :
    readByte m' a = readByte m a := by
  induction h with
  | refl => rfl
  | word v _ hx hp ih =>
    have outside := ha _ hx
    rw [readByte_writeWord, if_neg (by omega), ih]

/-! ### Writing more than one word -/

theorem words {vs : List Word} {p : Nat} (h : WritesIn xs m m') (hx : x ∈ xs) (hbase : x.base ≤ p)
    (hend : p + vs.length ≤ x.base + x.len) : WritesIn xs m (writeWords m' p vs) := by
  induction vs generalizing m' p with
  | nil => exact h
  | cons v rest ih =>
    rw [List.length_cons] at hend
    exact ih (h.word v hx (by omega)) (by omega) (by omega)

/-- An operand-sized result written at the base of its region. -/
theorem wholeRegion {vs : List Word} {base len : Nat} (h : WritesIn xs m m') (hx : ⟨base, len⟩ ∈ xs)
    (hlen : vs.length = len) : WritesIn xs m (writeWords m' base vs) :=
  h.words hx (Nat.le_refl _) (by rw [hlen])

theorem pointSlots {f : FormatBA} {pre : Memory} {k d n : Nat} (h : WritesIn xs m m') (hx : x ∈ xs)
    (hbase : x.base ≤ bucketSlot f.acc.toNat f.coordSize.toNat d 0)
    (hend : bucketSlot f.acc.toNat f.coordSize.toNat d 0 + n ≤ x.base + x.len) :
    WritesIn xs m (addPointSlots f pre k d n m') := by
  induction n with
  | zero => exact h
  | succ c ih =>
    exact (ih (by omega)).word _ hx (by rw [bucketSlot_eq]; omega)

end WritesIn

/-! ### The rules -/

/-- The slots of a bucket of ACC lie in ACC (20_memory.md R44). -/
theorem bucketSlot_le {base nb cs d : Nat} (hd : d ≠ 0) (hle : d ≤ nb) :
    base ≤ bucketSlot base cs d 0 ∧ bucketSlot base cs d 0 + cs ≤ base + nb * cs := by
  obtain ⟨e, rfl⟩ := Nat.exists_eq_succ_of_ne_zero hd
  have rows : (e + 1) * cs ≤ nb * cs := Nat.mul_le_mul_right cs hle
  rw [Nat.succ_mul] at rows
  simp only [bucketSlot, Nat.succ_eq_add_one, Nat.add_sub_cancel]
  omega

theorem addPoints_writesIn (f : FormatBA) (pre : Memory) (n : Nat) (m : Memory) :
    WritesIn [⟨f.acc.toNat, f.numBuckets.toNat * f.coordSize.toNat⟩] m (addPoints f pre n m) := by
  induction n with
  | zero => exact .refl
  | succ k ih =>
    rw [addPoints]
    rcases addPoint_cases f pre k (addPoints f pre k m) with ⟨h, -⟩ | ⟨h, hne, hle⟩
    · rwa [h]
    · obtain ⟨hbase, hend⟩ := bucketSlot_le (base := f.acc.toNat) (cs := f.coordSize.toNat) hne hle
      rw [h]
      exact ih.pointSlots (List.mem_singleton.mpr rfl) hbase hend

/-- Every rule writes in the output and in-out regions of its command alone. -/
theorem ruleOf_writesIn (i : Instr) (s : State) :
    WritesIn ((regionsOf i).out ++ (regionsOf i).inout) s.mem (ruleOf i s).mem := by
  cases i with
  | ladd f => exact WritesIn.refl.wholeRegion (List.mem_singleton.mpr rfl) (by simp)
  | lsub f => exact WritesIn.refl.wholeRegion (List.mem_singleton.mpr rfl) (by simp)
  | lcmp f => exact .refl
  | montmul f =>
    exact WritesIn.refl.wholeRegion (List.mem_singleton.mpr rfl) (by rw [montMul_length] <;> simp)
  | bmontmul f => exact WritesIn.refl.wholeRegion (List.mem_singleton.mpr rfl) (batchResult_length f s.mem)
  | nttbfly f =>
    refine (WritesIn.refl.wholeRegion ?_ (bflyEvens_length f s.mem)).wholeRegion ?_ (bflyOdds_length f s.mem) <;>
      simp [regionsOf]
  | bktacc f => exact addPoints_writesIn f s.mem _ s.mem

/-- A command, completed or rejected, writes in its output and in-out regions alone. -/
theorem exec_writesIn {i : Instr} {s t : State} (h : exec i s = .next t) :
    WritesIn ((regionsOf i).out ++ (regionsOf i).inout) s.mem t.mem := by
  rcases exec_cases h with ⟨st, -, rfl⟩ | ⟨-, rfl⟩
  · exact .refl
  · exact ruleOf_writesIn i s

/-! ### What no command changes -/

/-- MEM_WORDS, the HOST's data and the reset counter stay. -/
theorem exec_keepsHost {i : Instr} {s t : State} (h : exec i s = .next t) : KeepsHost s t := by
  have era := (exec_writesIn h).era_eq
  rcases exec_cases h with ⟨st, -, rfl⟩ | ⟨-, rfl⟩
  · exact ⟨rfl, rfl, rfl, era⟩
  · obtain ⟨m, cy, cmp, hrule⟩ := ruleOf_eq i s
    rw [hrule] at era ⊢
    exact ⟨rfl, rfl, rfl, era⟩

theorem exec_latch {i : Instr} {s t : State} (h : exec i s = .next t) : t.latch = none := by
  rcases exec_cases h with ⟨st, -, rfl⟩ | ⟨-, rfl⟩
  · rfl
  · obtain ⟨m, cy, cmp, hrule⟩ := ruleOf_eq i s
    rw [hrule, complete_latch]

/-- Settles O25: a rule writes in the command's regions alone, and a rejection does not touch MEM. -/
theorem commandWritesOnlyItsRegions : Obligations.CommandWritesOnlyItsRegions := by
  unfold Obligations.CommandWritesOnlyItsRegions
  intro i s t h
  refine ⟨fun a ha => (exec_writesIn h).readByte_eq ha, fun hillegal => ?_, exec_keepsHost h⟩
  rcases exec_cases h with ⟨st, -, rfl⟩ | ⟨hpass, -⟩
  · rfl
  · exact absurd (legal_of_firstFailure hpass) hillegal

/-! ### RSP after a command -/

/-- A completed command's flags: CY only from LADD and LSUB, CMP from LCMP and from no other (10_state.md R27). -/
theorem ruleOf_rsp (i : Instr) (s : State) :
    ∃ cy cmp, (ruleOf i s).rsp = rspWord .ok cy cmp
      ∧ (cy = true → mnemonicOfInstr i = .ladd ∨ mnemonicOfInstr i = .lsub)
      ∧ (cmp = none ↔ mnemonicOfInstr i ≠ .lcmp) := by
  cases i <;> refine ⟨_, _, rfl, ?_, ?_⟩ <;> simp [mnemonicOfInstr]

/-- RSP after a command: a rejection's code alone, or OK with the flags of the command. -/
theorem exec_rsp {i : Instr} {s t : State} (h : exec i s = .next t) :
    (∃ st, st ≠ .ok ∧ t.rsp = rspWord st false none)
      ∨ ∃ cy cmp, t.rsp = rspWord .ok cy cmp
          ∧ (cy = true → mnemonicOfInstr i = .ladd ∨ mnemonicOfInstr i = .lsub)
          ∧ (cmp = none ↔ mnemonicOfInstr i ≠ .lcmp) := by
  rcases exec_cases h with ⟨st, hst, rfl⟩ | ⟨-, rfl⟩
  · exact .inl ⟨st, (firstFailure_ne hst).1, rfl⟩
  · exact .inr (ruleOf_rsp i s)

theorem statusCode_eq_zero_iff {st : Status} : statusCode st = 0 ↔ st = .ok := by
  cases st <;> decide

theorem cmpCode_eq_zero_iff {cmp : Option Comparison} : cmpCode cmp = 0 ↔ cmp = none := by
  rcases cmp with _ | _ | _ | _ <;> decide

/-- Settles O28: the fields are those of a rejection, or those of a completion of this command. -/
theorem rspFieldsAfterCommand : Obligations.RspFieldsAfterCommand := by
  unfold Obligations.RspFieldsAfterCommand
  intro i s t h
  rcases exec_rsp h with ⟨st, hst, hrsp⟩ | ⟨cy, cmp, hrsp, hcy, hcmp⟩
  · have hstatus := mt statusCode_eq_zero_iff.mp hst
    rw [hrsp, rspUpper_rspWord, rspCy_rspWord, rspCmp_rspWord, rspStatus_rspWord]
    exact ⟨rfl, fun _ _ => rfl, fun _ => rfl, fun _ hok => absurd hok hstatus, fun _ => ⟨rfl, rfl⟩⟩
  · rw [hrsp, rspUpper_rspWord, rspCy_rspWord, rspCmp_rspWord, rspStatus_rspWord, ne_eq (cmpCode cmp),
      cmpCode_eq_zero_iff]
    exact ⟨rfl, fun hladd hlsub => Bool.eq_false_iff.mpr fun hset => (hcy hset).elim hladd hlsub, hcmp.mpr,
      fun hlcmp _ hnone => hcmp.mp hnone hlcmp, fun hne => absurd rfl hne⟩

end Sys2Proof.Machine
end

section
/-! The steps of the machine (10_state.md R31 to R34; 70_reset_and_hazards.md R210 to R216): one equation per turn of
the schedule and per HOST step, the invariant, and the fused transition. -/

namespace Sys2Proof.Machine

/-! ### Whose turn it is -/

section
variable {s : State} {rest : List Turn}

theorem step_of_empty_schedule (h : s.schedule = []) : step s = engineTurn s := by
  simp only [step, takeTurn, h]

theorem step_of_engine (h : s.schedule = .engine :: rest) : step s = engineTurn { s with schedule := rest } := by
  simp only [step, takeTurn, h]

theorem step_of_host {a : HostStep} (h : s.schedule = .host a :: rest) :
    step s = hostTurn a { s with schedule := rest } := by
  simp only [step, takeTurn, h]

theorem step_of_reset (h : s.schedule = .reset :: rest) :
    step s = .next (resetEvent { s with schedule := rest }) := by
  simp only [step, takeTurn, h]

end

/-! ### The ENGINE's turn -/

theorem engineTurn_of_idle {s : State} (h : s.latch = none) : engineTurn s = .next s := by
  simp only [engineTurn, h]

/-- The ENGINE's turn answers a next state, and it has dropped the packet (10_state.md R33). -/
theorem engineTurn_ends (s : State) : ∃ t, engineTurn s = .next t ∧ t.latch = none := by
  cases hlatch : s.latch with
  | none => exact ⟨s, engineTurn_of_idle hlatch, hlatch⟩
  | some pkt =>
    cases hdecode : decode pkt with
    | reservedOpcode op => exact ⟨_, engineTurn_of_reservedOpcode hlatch hdecode, rfl⟩
    | command i =>
      obtain ⟨t, ht⟩ := exec_total i s
      exact ⟨t, (engineTurn_of_command hlatch hdecode).trans ht, exec_latch ht⟩

theorem engineTurn_cfg {s t : State} (h : engineTurn s = .next t) : t.cfg = s.cfg := by
  rcases engineTurn_cases h with ⟨-, rfl⟩ | ⟨_, i, -, -, hexec⟩ | ⟨_, _, -, -, rfl⟩
  · rfl
  · exact (exec_keepsHost hexec).1
  · rfl

/-- Settles O10: the turn is the ENGINE's in both cases, and the latch decides what it does. -/
theorem stepRunsDecodedCommand : Obligations.StepRunsDecodedCommand := by
  unfold Obligations.StepRunsDecodedCommand
  intro s pkt i hlatch hdecode
  exact ⟨fun h => (step_of_empty_schedule h).trans (engineTurn_of_command hlatch hdecode),
    fun rest h => (step_of_engine h).trans (engineTurn_of_command hlatch hdecode)⟩

/-- Settles O11: an ENGINE's turn without a packet is no step. -/
theorem idleEngineChangesNothing : Obligations.IdleEngineChangesNothing := by
  unfold Obligations.IdleEngineChangesNothing
  intro s hlatch
  exact ⟨fun h => (step_of_empty_schedule h).trans (engineTurn_of_idle hlatch),
    fun rest h => (step_of_engine h).trans (engineTurn_of_idle hlatch)⟩

/-- Settles O12: a packet is a reserved opcode, or a command, which is rejected or completes. -/
theorem engineAlwaysEnds : Obligations.EngineAlwaysEnds := by
  unfold Obligations.EngineAlwaysEnds
  intro s
  obtain ⟨t, ht, hlatch⟩ := engineTurn_ends s
  exact ⟨t, ht, by rw [busy_eq, hlatch, Option.isSome_none]⟩

/-! ### Reset -/

/-- A memory with no cells holds free values alone (10_state.md R34). -/
theorem readByte_no_cells (era a : Nat) :
    readByte { cells := [], era := era } a = Config.powerOnByte era a := rfl

/-- Settles O7: no cell is written, and RSP = 0 is a legal response. -/
theorem resetMeetsInvariant : Obligations.ResetMeetsInvariant := by
  unfold Obligations.ResetMeetsInvariant
  refine ⟨by decide, List.Pairwise.nil, fun c hc => absurd hc List.not_mem_nil, by decide⟩

/-- Settles O8: MEM has no cells at reset. -/
theorem resetState : Obligations.ResetState := by
  unfold Obligations.ResetState
  exact ⟨rfl, rfl, readByte_no_cells _⟩

/-- Settles O9: the turn of the reset event is `resetEvent`, field by field. -/
theorem resetEventEffect : Obligations.ResetEventEffect := by
  unfold Obligations.ResetEventEffect
  intro s rest h
  exact ⟨_, step_of_reset h, rfl, rfl, rfl, rfl, rfl, rfl, readByte_no_cells _⟩

/-! ### The HOST's steps -/

section
variable {s : State} {p : Nat}

theorem hostMemAccess_of_busy (h : s.busy = true) (s' : State) :
    hostMemAccess p s s' = .refused .hostMemWhileBusy := if_pos h

theorem hostMemAccess_of_idle (h : s.busy = false) (s' : State) :
    hostMemAccess p s s' = if p < s.cfg.memWords then .next s' else .fault (.noSuchWord p) := by
  rw [hostMemAccess, h, if_neg Bool.false_ne_true]

theorem busy_of_latch_none (h : s.latch = none) : s.busy = false := by
  rw [busy_eq, h, Option.isSome_none]

end

/-- Settles O15: the eight bytes of the word are written, and a byte outside them is not one of the eight. -/
theorem hostWriteEffect : Obligations.HostWriteEffect := by
  unfold Obligations.HostWriteEffect
  intro s p v rest hschedule hlatch hp
  refine ⟨{ s with schedule := rest, mem := writeWord s.mem p v }, ?_, ?_, fun a ha => ?_, rfl, rfl, hlatch, rfl, rfl,
    rfl⟩
  · have idle : ({ s with schedule := rest } : State).busy = false := busy_of_latch_none hlatch
    rw [step_of_host hschedule, hostTurn, hostWrite, hostMemAccess_of_idle idle, if_pos hp]
  · exact (readWord_writeWord s.mem p p v).trans (if_pos rfl)
  · exact (readByte_writeWord s.mem p a v).trans (if_neg (by omega))

/-- Settles O16: while BUSY = 0 an access inside MEM is made. -/
theorem hostReadEffect : Obligations.HostReadEffect := by
  unfold Obligations.HostReadEffect
  intro s p rest hschedule hlatch hp
  have idle : ({ s with schedule := rest } : State).busy = false := busy_of_latch_none hlatch
  rw [step_of_host hschedule, hostTurn, hostRead, hostMemAccess_of_idle idle, if_pos hp]

theorem hostIssue_of_idle {s : State} (pkt : Packet) (h : s.busy = false) :
    hostIssue pkt s = .next { s with latch := some pkt } := by
  rw [hostIssue, h, if_neg Bool.false_ne_true]

/-- Settles O17: while BUSY = 0 a packet is accepted. -/
theorem hostIssueEffect : Obligations.HostIssueEffect := by
  unfold Obligations.HostIssueEffect
  intro s pkt rest hschedule hlatch
  have idle : ({ s with schedule := rest } : State).busy = false := busy_of_latch_none hlatch
  exact ⟨_, (step_of_host hschedule).trans (hostIssue_of_idle pkt idle), rfl, rfl, rfl⟩

/-- Settles O18: while BUSY = 1 a packet is not accepted. -/
theorem issueWhileBusyHasNoEffect : Obligations.IssueWhileBusyHasNoEffect := by
  unfold Obligations.IssueWhileBusyHasNoEffect
  intro s pkt rest hschedule hbusy
  exact (step_of_host hschedule).trans (if_pos hbusy)

/-- Settles O19: the response port asks for no condition. -/
theorem hostReadRspEffect : Obligations.HostReadRspEffect := by
  unfold Obligations.HostReadRspEffect
  intro s rest hschedule
  exact step_of_host hschedule

/-- Settles O20: a HOST access to MEM looks at BUSY first and at the address second, for a write as for a read. -/
theorem hostMemAccessStops : Obligations.HostMemAccessStops := by
  unfold Obligations.HostMemAccessStops
  intro s p v rest hschedule
  have access : ∃ s', step s = hostMemAccess p { s with schedule := rest } s' := by
    rcases hschedule with hwrite | hread
    · exact ⟨_, step_of_host hwrite⟩
    · exact ⟨_, step_of_host hread⟩
  obtain ⟨s', hstep⟩ := access
  exact ⟨fun hbusy => hstep.trans (hostMemAccess_of_busy hbusy s'),
    fun hidle hp => hstep.trans ((hostMemAccess_of_idle hidle s').trans (if_neg (Nat.not_lt.mpr hp)))⟩

/-- Settles O21: MEM and the latch change in HOST steps that BUSY = 1 forbids. -/
theorem hostStepsKeepRspAndLatch : Obligations.HostStepsKeepRspAndLatch := by
  unfold Obligations.HostStepsKeepRspAndLatch
  intro a s t h
  rcases hostTurn_cases h with ⟨p, v, -, hidle, -, rfl⟩ | ⟨p, -, -, -, rfl⟩ | ⟨pkt, -, -, rfl⟩ | ⟨pkt, -, hidle, rfl⟩ |
    ⟨-, rfl⟩
  · exact ⟨rfl, rfl, fun hbusy => absurd (hbusy.symm.trans hidle) (by decide)⟩
  · exact ⟨rfl, rfl, fun _ => ⟨rfl, rfl⟩⟩
  · exact ⟨rfl, rfl, fun _ => ⟨rfl, rfl⟩⟩
  · exact ⟨rfl, rfl, fun hbusy => absurd (hbusy.symm.trans hidle) (by decide)⟩
  · exact ⟨rfl, rfl, fun _ => ⟨rfl, rfl⟩⟩

/-- Settles O14: commands and HOST steps keep the configuration, and so does the reset event. -/
theorem stepKeepsMemWords : Obligations.StepKeepsMemWords := by
  unfold Obligations.StepKeepsMemWords
  intro s t h
  rcases step_cases h with ⟨-, hengine⟩ | ⟨rest, -, hengine⟩ | ⟨a, rest, -, hhost⟩ | ⟨rest, -, rfl⟩
  · exact engineTurn_cfg hengine
  · have hcfg := engineTurn_cfg hengine
    exact hcfg
  · obtain ⟨-, hcfg, -⟩ := hostStepsKeepRspAndLatch a _ t hhost
    exact hcfg
  · rfl

/-! ### The invariant -/

theorem rspLegal_zero : RspLegal 0 := by decide

theorem rspLegal_of_rejection (st : Status) : RspLegal (rspWord st false none) := by
  cases st <;> decide

/-- OK may carry a carry or a comparison, not both (10_state.md R27). -/
theorem rspLegal_of_completion {cy : Bool} {cmp : Option Comparison} (h : cy = true → cmp = none) :
    RspLegal (rspWord .ok cy cmp) := by
  rw [RspLegal, rspUpper_rspWord, rspStatus_rspWord, rspCy_rspWord, rspCmp_rspWord]
  exact ⟨rfl, by decide, fun hne => absurd rfl hne, fun hcy => cmpCode_eq_zero_iff.mpr (h hcy)⟩

theorem exec_rspLegal {i : Instr} {s t : State} (h : exec i s = .next t) : RspLegal t.rsp := by
  rcases exec_rsp h with ⟨st, -, hrsp⟩ | ⟨cy, cmp, hrsp, hcy, hcmp⟩
  · exact hrsp ▸ rspLegal_of_rejection st
  · refine hrsp ▸ rspLegal_of_completion fun hset => hcmp.mpr fun hlcmp => ?_
    rcases hcy hset with hladd | hlsub
    · exact Mnemonic.noConfusion (hladd.symm.trans hlcmp)
    · exact Mnemonic.noConfusion (hlsub.symm.trans hlcmp)

/-- The written regions of a command that passes the checks are inside MEM (60_exceptions.md R186). -/
theorem inside_of_regionsInside {n : Nat} {i : Instr} (h : RegionsInside n i) :
    ∀ x ∈ (regionsOf i).out ++ (regionsOf i).inout, Inside n x.base x.len := by
  have all := (rangesOk_iff n i).mpr h
  rw [rangesOk, List.all_eq_true] at all
  intro x hx
  refine (inRange_iff n x).mp (all x ?_)
  simp only [RegionTable.all, List.mem_append] at hx ⊢
  tauto

theorem exec_keeps_inv {i : Instr} {s t : State} (hs : s.Inv) (h : exec i s = .next t) : t.Inv := by
  obtain ⟨hcfg, hwf, hbelow, -⟩ := hs
  obtain ⟨cfg_eq, -, -, -⟩ := exec_keepsHost h
  have writes := exec_writesIn h
  refine ⟨by rwa [cfg_eq], writes.wf hwf, ?_, exec_rspLegal h⟩
  rw [cfg_eq]
  rcases exec_cases h with ⟨st, -, rfl⟩ | ⟨hpass, rfl⟩
  · exact hbelow
  · obtain ⟨-, hinside, -⟩ := legal_of_firstFailure hpass
    exact writes.cells_below (inside_of_regionsInside hinside) hbelow

theorem engineTurn_keeps_inv {s t : State} (hs : s.Inv) (h : engineTurn s = .next t) : t.Inv := by
  rcases engineTurn_cases h with ⟨-, rfl⟩ | ⟨_, i, -, -, hexec⟩ | ⟨_, _, -, -, rfl⟩
  · exact hs
  · exact exec_keeps_inv hs hexec
  · obtain ⟨hcfg, hwf, hbelow, -⟩ := hs
    exact ⟨hcfg, hwf, hbelow, rspLegal_of_rejection .errOpcode⟩

theorem hostTurn_keeps_inv {a : HostStep} {s t : State} (hs : s.Inv) (h : hostTurn a s = .next t) : t.Inv := by
  obtain ⟨hcfg, hwf, hbelow, hrsp⟩ := hs
  rcases hostTurn_cases h with ⟨p, v, -, -, hp, rfl⟩ | ⟨p, -, -, -, rfl⟩ | ⟨pkt, -, -, rfl⟩ | ⟨pkt, -, -, rfl⟩ |
    ⟨-, rfl⟩
  · exact ⟨hcfg, writeWord_wf hwf p v, writeWord_below hbelow hp v, hrsp⟩
  · exact ⟨hcfg, hwf, hbelow, hrsp⟩
  · exact ⟨hcfg, hwf, hbelow, hrsp⟩
  · exact ⟨hcfg, hwf, hbelow, hrsp⟩
  · exact ⟨hcfg, hwf, hbelow, hrsp⟩

theorem resetEvent_keeps_inv {s : State} (hs : s.Inv) : (resetEvent s).Inv := by
  obtain ⟨hcfg, -, -, -⟩ := hs
  exact ⟨hcfg, List.Pairwise.nil, fun c hc => absurd hc List.not_mem_nil, rspLegal_zero⟩

/-- Settles O6: whoever moves keeps the invariant. The schedule, which a step consumes, is no part of it. -/
theorem stepKeepsInvariant : Obligations.StepKeepsInvariant := by
  unfold Obligations.StepKeepsInvariant
  intro s t hs h
  have consumed (rest : List Turn) : ({ s with schedule := rest } : State).Inv := hs
  rcases step_cases h with ⟨-, hengine⟩ | ⟨rest, -, hengine⟩ | ⟨a, rest, -, hhost⟩ | ⟨rest, -, rfl⟩
  · exact engineTurn_keeps_inv hs hengine
  · exact engineTurn_keeps_inv (consumed rest) hengine
  · exact hostTurn_keeps_inv (consumed rest) hhost
  · exact resetEvent_keeps_inv (consumed rest)

/-! ### A command reads MEM_WORDS and MEM alone -/

/-- The rule of a command takes its result from MEM: other states with the same MEM get the same MEM and RSP. -/
theorem ruleOf_congr {i : Instr} {s s' : State} (h : s.mem = s'.mem) :
    ruleOf i s' = { s' with mem := (ruleOf i s).mem, rsp := (ruleOf i s).rsp, latch := none } := by
  cases s
  cases i <;> (subst h; rfl)

/-- Settles O27: the checks read MEM_WORDS, the rule reads MEM. -/
theorem commandIgnoresRspAndHost : Obligations.CommandIgnoresRspAndHost := by
  unfold Obligations.CommandIgnoresRspAndHost
  intro i s s' t hcfg hmem h
  rcases exec_cases h with ⟨st, hfail, rfl⟩ | ⟨hpass, rfl⟩
  · rw [exec_reject (hcfg ▸ hfail), reject_mem, hmem]
    rfl
  · rw [exec_rule (hcfg ▸ hpass), ruleOf_congr hmem]

/-! ### The fused transition -/

theorem exec_setSchedule {i : Instr} {s t : State} (h : exec i s = .next t) (rest : List Turn) :
    exec i { s with schedule := rest } = .next { t with schedule := rest } := by
  obtain ⟨hcfg, -, hlog, -⟩ := exec_keepsHost h
  rw [commandIgnoresRspAndHost i s { s with schedule := rest } t rfl rfl h, ← exec_latch h, ← hcfg, ← hlog]

theorem engineTurn_setSchedule {s t : State} (h : engineTurn s = .next t) (rest : List Turn) :
    engineTurn { s with schedule := rest } = .next { t with schedule := rest } := by
  rcases engineTurn_cases h with ⟨hlatch, rfl⟩ | ⟨pkt, i, hlatch, hdecode, hexec⟩ | ⟨pkt, op, hlatch, hdecode, rfl⟩
  · exact engineTurn_of_idle hlatch
  · have latched : ({ s with schedule := rest } : State).latch = some pkt := hlatch
    exact (engineTurn_of_command latched hdecode).trans (exec_setSchedule hexec rest)
  · exact engineTurn_of_reservedOpcode hlatch hdecode

/-- The fused transition is the ENGINE's turn on the accepted packet, and it ends idle. -/
theorem engineTurn_eq_packetEffect (s : State) (pkt : Packet) :
    engineTurn { s with latch := some pkt } = .next (packetEffect s pkt) ∧ (packetEffect s pkt).latch = none := by
  obtain ⟨t, ht, hlatch⟩ := engineTurn_ends { s with latch := some pkt }
  have heffect : packetEffect s pkt = t := by simp only [packetEffect, ht]
  exact heffect ▸ ⟨ht, hlatch⟩

/-- Two steps perform one packet: the HOST issues it and the ENGINE takes its turn (10_state.md R31). -/
theorem run_issue_engine {s : State} (h : s.latch = none) (pkt : Packet) (k : Nat) (rest : List Turn) :
    Host.Core.run Sys2Proof.core (k + 2) { s with schedule := .host (.issue pkt) :: .engine :: rest }
      = Host.Core.run Sys2Proof.core k { packetEffect s pkt with schedule := rest } := by
  have idle : ({ s with schedule := .engine :: rest } : State).busy = false := busy_of_latch_none h
  have issue : step { s with schedule := .host (.issue pkt) :: .engine :: rest }
      = .next { s with schedule := .engine :: rest, latch := some pkt } :=
    hostIssue_of_idle pkt idle
  have perform : step { s with schedule := .engine :: rest, latch := some pkt }
      = .next { packetEffect s pkt with schedule := rest } :=
    engineTurn_setSchedule (engineTurn_eq_packetEffect s pkt).1 rest
  simp only [Host.Core.run, Sys2Proof.core, issue, perform]

/-- Settles O13, by induction on the packets: two steps per packet, each pair ending idle. -/
theorem packetListIsLeftFold : Obligations.PacketListIsLeftFold := by
  unfold Obligations.PacketListIsLeftFold
  intro ps
  induction ps with
  | nil => intro s rest _; rfl
  | cons pkt ps ih =>
    intro s rest h
    exact (run_issue_engine h pkt (2 * ps.length) _).trans (ih _ rest (engineTurn_eq_packetEffect s pkt).2)

end Sys2Proof.Machine
end

section
/-! The validity checks (60_exceptions.md R182 to R187): the status of a command is the code of the first condition it
fails, in the order must-be-zero bits, shape, ranges, overlaps. -/

namespace Sys2Proof.Machine

/-! ### The first failing check -/

section
variable {n : Nat} {i : Instr}

theorem firstFailure_of_reserved (h : ¬ i.ReservedZero) : firstFailure n i = some .errReserved := by
  rw [firstFailure, Bool.eq_false_iff.mpr (mt (reservedOk_iff i).mp h)]
  rfl

/-- The code of a shape that the command does not accept: the window for BKTACC, the limb count for the others
(60_exceptions.md R185). -/
def shapeError (i : Instr) : Status := if mnemonicOfInstr i = .bktacc then .errWindow else .errLimbs

/-- BKTACC is the command whose limb count is not checked against 4 and 6 but whose window is checked. -/
theorem shape_checks_cases (i : Instr) :
    (windowOk i = true ∧ shapeError i = .errLimbs) ∨ (limbsOk i = true ∧ shapeError i = .errWindow) := by
  cases i with
  | bktacc f => exact .inr ⟨rfl, rfl⟩
  | ladd f | lsub f | lcmp f | montmul f | bmontmul f | nttbfly f => exact .inl ⟨rfl, rfl⟩

theorem firstFailure_of_shape (hreserved : i.ReservedZero) (h : ¬ i.ShapeLegal) :
    firstFailure n i = some (shapeError i) := by
  have fails := mt (shapeOk_iff i).mp h
  rw [firstFailure, (reservedOk_iff i).mpr hreserved]
  rcases shape_checks_cases i with ⟨hwindow, herror⟩ | ⟨hlimbs, herror⟩
  · rw [herror, Bool.eq_false_iff.mpr fun hlimbs => fails ⟨hlimbs, hwindow⟩]
    rfl
  · rw [herror, hlimbs, Bool.eq_false_iff.mpr fun hwindow => fails ⟨hlimbs, hwindow⟩]
    rfl

theorem firstFailure_of_range (hwf : i.WellFormed) (h : ¬ RegionsInside n i) : firstFailure n i = some .errRange := by
  obtain ⟨hreserved, hshape⟩ := hwf
  obtain ⟨hlimbs, hwindow⟩ := (shapeOk_iff i).mpr hshape
  rw [firstFailure, (reservedOk_iff i).mpr hreserved, hlimbs, hwindow,
    Bool.eq_false_iff.mpr (mt (rangesOk_iff n i).mp h)]
  rfl

theorem firstFailure_of_overlap (hwf : i.WellFormed) (hinside : RegionsInside n i) (h : ¬ RegionsCompatible i) :
    firstFailure n i = some .errOverlap := by
  obtain ⟨hreserved, hshape⟩ := hwf
  obtain ⟨hlimbs, hwindow⟩ := (shapeOk_iff i).mpr hshape
  rw [firstFailure, (reservedOk_iff i).mpr hreserved, hlimbs, hwindow, (rangesOk_iff n i).mpr hinside,
    Bool.eq_false_iff.mpr (mt (overlapsOk_iff i).mp h)]
  rfl

end

/-! ### The status a command leaves -/

theorem rspStatus_of_failure {i : Instr} {s t : State} {st : Status} (h : exec i s = .next t)
    (hfail : firstFailure s.cfg.memWords i = some st) : rspStatus t.rsp = statusCode st := by
  obtain rfl : reject st s = t := Host.Outcome.next.inj ((exec_reject hfail).symm.trans h)
  exact rspStatus_rspWord st false none

theorem rspStatus_of_legal {i : Instr} {s t : State} (h : exec i s = .next t) (hlegal : Legal s.cfg.memWords i) :
    rspStatus t.rsp = 0 := by
  obtain rfl : ruleOf i s = t := Host.Outcome.next.inj ((exec_of_legal hlegal).symm.trans h)
  obtain ⟨cy, cmp, hrsp, -, -⟩ := ruleOf_rsp i s
  rw [hrsp, rspStatus_rspWord]
  rfl

/-- STATUS = OK exactly if the command is legal: every failure's code is another one. -/
theorem rspStatus_eq_zero_iff {i : Instr} {s t : State} (h : exec i s = .next t) :
    rspStatus t.rsp = 0 ↔ Legal s.cfg.memWords i := by
  cases hfirst : firstFailure s.cfg.memWords i with
  | none => exact iff_of_true (rspStatus_of_legal h (legal_of_firstFailure hfirst)) (legal_of_firstFailure hfirst)
  | some st =>
    rw [rspStatus_of_failure h hfirst, statusCode_eq_zero_iff, ← firstFailure_eq_none_iff, hfirst]
    exact iff_of_false (firstFailure_ne hfirst).1 (Option.some_ne_none st)

/-- Settles O22: a command completes if it is legal and is rejected with another code if not. -/
theorem statusOkIffLegal : Obligations.StatusOkIffLegal := by
  unfold Obligations.StatusOkIffLegal
  intro i s
  obtain ⟨t, ht⟩ := exec_total i s
  exact ⟨t, ht, busy_of_latch_none (exec_latch ht), rspStatus_eq_zero_iff ht⟩

theorem statusCode_shapeError (i : Instr) :
    statusCode (shapeError i) = if mnemonicOfInstr i = .bktacc then 0x04 else 0x03 := by
  rw [shapeError]
  split_ifs <;> rfl

/-- Settles O23: each clause names the first check that fails, and the status is its code. -/
theorem checksInFixedOrder : Obligations.ChecksInFixedOrder := by
  unfold Obligations.ChecksInFixedOrder
  intro s pkt hlatch
  obtain ⟨t, ht, -⟩ := engineTurn_ends s
  refine ⟨t, ht, fun op hdecode => ?_, fun i hdecode => ?_⟩
  · have hreject := (engineTurn_of_reservedOpcode hlatch hdecode).symm.trans ht
    obtain rfl : reject .errOpcode s = t := Host.Outcome.next.inj hreject
    exact rspStatus_rspWord .errOpcode false none
  · have hexec : exec i s = .next t := (engineTurn_of_command hlatch hdecode).symm.trans ht
    refine ⟨fun h => ?_, fun hreserved h => ?_, fun hwf h => ?_, fun hwf hinside h => ?_, rspStatus_of_legal hexec⟩
    · exact rspStatus_of_failure hexec (firstFailure_of_reserved h)
    · exact (rspStatus_of_failure hexec (firstFailure_of_shape hreserved h)).trans (statusCode_shapeError i)
    · exact rspStatus_of_failure hexec (firstFailure_of_range hwf h)
    · exact rspStatus_of_failure hexec (firstFailure_of_overlap hwf hinside h)

end Sys2Proof.Machine
end

section
/-! LADD, LSUB and LCMP (40_limb_arithmetic.md R93 to R98): their rules are the limb primitives on the operands in MEM,
and the primitives are arithmetic on the values. -/

namespace Sys2Proof.Machine

/-! ### Compare -/

/-- Compare is the trichotomy of the values: the more significant limbs decide, and limb 0 breaks their tie
(40_limb_arithmetic.md R93). -/
theorem compareLimbs_eq {a b : Limbs} (h : a.length = b.length) :
    compareLimbs a b = if val a < val b then .less else if val a = val b then .equal else .greater := by
  induction a generalizing b with
  | nil =>
    obtain rfl : b = [] := List.length_eq_zero_iff.mp h.symm
    rfl
  | cons x a ih =>
    cases b with
    | nil => simp at h
    | cons y b =>
      have hx := x.isLt
      have hy := y.isLt
      rw [compareLimbs, ih (by simpa using h)]
      simp only [val, BitVec.lt_def]
      rcases lt_trichotomy (val a) (val b) with hlt | heq | hgt
      · have above : x.toNat + 2 ^ 64 * val a < y.toNat + 2 ^ 64 * val b := by omega
        simp only [hlt, above, if_true]
      · simp only [heq, lt_irrefl, if_false, if_true, Nat.add_lt_add_iff_right, Nat.add_right_cancel_iff]
        rcases lt_trichotomy x.toNat y.toNat with h0 | h0 | h0
        · simp only [h0, if_true]
        · simp only [h0, lt_irrefl, if_false, if_true]
        · simp only [h0, h0.not_gt, h0.ne', if_false, if_true]
      · have above : y.toNat + 2 ^ 64 * val b < x.toNat + 2 ^ 64 * val a := by omega
        simp only [hgt.not_gt, hgt.ne', above.not_gt, above.ne', if_false]

theorem compareLimbs_less_iff {a b : Limbs} (h : a.length = b.length) : compareLimbs a b = .less ↔ val a < val b := by
  rw [compareLimbs_eq h]
  split_ifs with hlt heq
  · simp [hlt]
  · simp [hlt]
  · simp [hlt]

/-- Settles O31: the three outcomes are the trichotomy of the values, and equal values are equal sequences. -/
theorem compareDecidesOrder : Obligations.CompareDecidesOrder := by
  unfold Obligations.CompareDecidesOrder
  intro a b h
  have equal : compareLimbs a b = .equal ↔ val a = val b := by
    rw [compareLimbs_eq h]
    split_ifs with hlt heq
    · simp [hlt.ne]
    · simp [heq]
    · simp [heq]
  have greater : compareLimbs a b = .greater ↔ val b < val a := by
    rw [compareLimbs_eq h]
    split_ifs with hlt heq
    · simp [hlt.le]
    · simp [heq]
    · simp only [true_iff]; omega
  exact ⟨compareLimbs_less_iff h, equal, equal.trans ⟨val_inj h, congrArg val⟩, greater⟩

/-! ### Carry and borrow -/

theorem addWithCarry_carry_iff {a b : Limbs} (h : a.length = b.length) :
    (addWithCarry a b).2 = true ↔ 2 ^ (64 * a.length) ≤ val a + val b := by
  have conserved := addWithCarry_val h
  have bound := addWithCarry_val_lt h
  cases hc : (addWithCarry a b).2 with
  | false =>
    rw [hc, Bool.toNat_false, Nat.mul_zero] at conserved
    simp only [Bool.false_eq_true, false_iff]
    omega
  | true =>
    rw [hc, Bool.toNat_true, Nat.mul_one] at conserved
    simp only [true_iff]
    omega

/-- The difference lifted by one `2^(64L)`, so that it stays a natural number. -/
theorem subWithBorrow_eq_limbsOf_add_sub {a b : Limbs} (h : a.length = b.length) :
    (subWithBorrow a b).1 = limbsOf a.length (2 ^ (64 * a.length) + val a - val b) := by
  have conserved := subWithBorrow_val h
  have bound := subWithBorrow_val_lt h
  refine eq_limbsOf_of_val (by simp [h]) ?_
  cases hw : (subWithBorrow a b).2 with
  | false =>
    rw [hw, Bool.toNat_false, Nat.mul_zero] at conserved
    rw [show 2 ^ (64 * a.length) + val a - val b = 2 ^ (64 * a.length) + val (subWithBorrow a b).1 by omega,
      Nat.add_mod_left, Nat.mod_eq_of_lt bound]
  | true =>
    rw [hw, Bool.toNat_true, Nat.mul_one] at conserved
    rw [show 2 ^ (64 * a.length) + val a - val b = val (subWithBorrow a b).1 by omega, Nat.mod_eq_of_lt bound]

/-! ### A completed command -/

theorem rspWord_of_carry (cy : Bool) : rspWord .ok cy none = if cy = true then 0x100 else 0x000 := by
  cases cy <;> rfl

theorem rspWord_of_comparison (c : Comparison) :
    rspWord .ok false (some c) = match c with | .less => 0x200 | .equal => 0x400 | .greater => 0x600 := by
  cases c <;> rfl

theorem readWords_writeWords_of_length {vs : List Word} {n : Nat} (h : vs.length = n) (m : Memory) (p : Nat) :
    readWords (writeWords m p vs) p n = vs := by
  rw [← h, readWords_writeWords]

/-- The frame of a command with one region to write. -/
theorem WritesIn.keepsBytesOutside {m m' : Memory} {base len : Nat} (h : WritesIn [⟨base, len⟩] m m') :
    KeepsBytesOutside m m' base len := by
  intro a ha
  refine h.readByte_eq fun x hx hin => ?_
  obtain rfl := List.mem_singleton.mp hx
  have inside : 8 * base ≤ a ∧ a < 8 * (base + len) := hin
  omega

/-! ### The statements -/

/-- Settles O32: the rule writes AddWithCarry's limbs at DST and its carry into CY. -/
theorem laddAddsLimbs : Obligations.LaddAddsLimbs := by
  unfold Obligations.LaddAddsLimbs
  intro f s hlegal L x y
  have hexec := exec_of_legal hlegal
  have hlen : (readWords s.mem f.a.toNat L).length = (readWords s.mem f.b.toNat L).length := by simp
  have hsum := addWithCarry_eq_limbsOf hlen
  have hcarry := addWithCarry_carry_iff hlen
  rw [readWords_length] at hsum hcarry
  refine ⟨_, hexec, ?_, ?_, exec_latch hexec, exec_keepsHost hexec, (exec_writesIn hexec).keepsBytesOutside⟩
  · exact (readWords_writeWords_of_length (by simp [L]) _ _).trans hsum
  · exact (rspWord_of_carry _).trans (if_congr hcarry rfl rfl)

/-- Settles O33: the rule writes SubWithBorrow's limbs at DST and its borrow into CY. -/
theorem lsubSubtractsLimbs : Obligations.LsubSubtractsLimbs := by
  unfold Obligations.LsubSubtractsLimbs
  intro f s hlegal L x y
  have hexec := exec_of_legal hlegal
  have hlen : (readWords s.mem f.a.toNat L).length = (readWords s.mem f.b.toNat L).length := by simp
  have hdifference := subWithBorrow_eq_limbsOf_add_sub hlen
  rw [readWords_length] at hdifference
  refine ⟨_, hexec, ?_, ?_, exec_latch hexec, exec_keepsHost hexec, (exec_writesIn hexec).keepsBytesOutside⟩
  · exact (readWords_writeWords_of_length (by simp [L]) _ _).trans hdifference
  · exact (rspWord_of_carry _).trans (if_congr (subWithBorrow_borrow_iff hlen) rfl rfl)

/-- Settles O34: the rule writes RSP alone, CMP as Compare answers. -/
theorem lcmpCompares : Obligations.LcmpCompares := by
  unfold Obligations.LcmpCompares
  intro f s hlegal L x y
  have hlen : (readWords s.mem f.a.toNat L).length = (readWords s.mem f.b.toNat L).length := by simp
  have hrsp : (ruleOf (.lcmp f) s).rsp = if x < y then 0x200 else if x = y then 0x400 else 0x600 := by
    refine (rspWord_of_comparison _).trans ?_
    rw [compareLimbs_eq hlen]
    split_ifs <;> rfl
  rw [exec_of_legal hlegal, ← hrsp]
  rfl

end Sys2Proof.Machine
end

section
/-! The Montgomery engine (41_montgomery.md R110 to R119): what each loop does to the value of its limbs. One iteration
adds a multiple of the modulus; the rounds divide by R; the subtraction at the end takes the residue. -/

namespace Sys2Proof.Machine

/-! ### The multiply-add row (41_montgomery.md R110, R112) -/

/-- One step of a row: its two words are the two digits of the exact product and sum. -/
theorem limb_mul_add (x y t c : Word) :
    (BitVec.ofNat 64 (x.toNat * y.toNat + t.toNat + c.toNat)).toNat
        + 2 ^ 64 * (BitVec.ofNat 64 ((x.toNat * y.toNat + t.toNat + c.toNat) / 2 ^ 64)).toNat
      = x.toNat * y.toNat + t.toNat + c.toNat := by
  have product : x.toNat * y.toNat ≤ (2 ^ 64 - 1) * (2 ^ 64 - 1) :=
    Nat.mul_le_mul (Nat.le_sub_one_of_lt x.isLt) (Nat.le_sub_one_of_lt y.isLt)
  have ht := t.isLt
  have hc := c.isLt
  have high : (x.toNat * y.toNat + t.toNat + c.toNat) / 2 ^ 64 < 2 ^ 64 := by omega
  rw [BitVec.toNat_ofNat, BitVec.toNat_ofNat, Nat.mod_eq_of_lt high, Nat.mod_add_div]

theorem mulAddLoop_val (x : Word) {y t : Limbs} (c : Word) (h : y.length = t.length) :
    val (mulAddLoop x y t c).1 + 2 ^ (64 * y.length) * (mulAddLoop x y t c).2.toNat
      = val t + x.toNat * val y + c.toNat := by
  induction y generalizing t c with
  | nil =>
    obtain rfl : t = [] := List.length_eq_zero_iff.mp h.symm
    simp [mulAddLoop, val]
  | cons yj y ih =>
    cases t with
    | nil => simp at h
    | cons tj t =>
      have limb := limb_mul_add x yj tj c
      have rest := ih (t := t) (BitVec.ofNat 64 ((x.toNat * yj.toNat + tj.toNat + c.toNat) / 2 ^ 64)) (by simpa using h)
      simp only [mulAddLoop, val, List.length_cons, two_pow_limbs_succ]
      linear_combination limb + 2 ^ 64 * rest

/-! ### SchoolbookMul (41_montgomery.md R110) -/

/-- A row with its carry appended holds the whole sum. -/
theorem val_row (x : Word) {b t : Limbs} (h : t.length = b.length) :
    val ((mulAddLoop x b t 0).1 ++ [(mulAddLoop x b t 0).2]) = val t + x.toNat * val b := by
  have row := mulAddLoop_val x 0 h.symm
  have hlen : (mulAddLoop x b t 0).1.length = b.length := by simp [h]
  rw [val_append, hlen]
  simpa [val] using row

theorem schoolbookRows_val {a b t : Limbs} (h : t.length = b.length) :
    val (schoolbookRows a b t) = val t + val a * val b := by
  induction a generalizing t with
  | nil => simp [schoolbookRows, val]
  | cons x a ih =>
    have row := val_row x h
    have hlen : ((mulAddLoop x b t 0).1 ++ [(mulAddLoop x b t 0).2]).length = b.length + 1 := by simp [h]
    unfold schoolbookRows
    dsimp only
    generalize (mulAddLoop x b t 0).1 ++ [(mulAddLoop x b t 0).2] = limbs at row hlen
    cases limbs with
    | nil => simp at hlen
    | cons done rest =>
      have ih := ih (t := rest) (by simpa using hlen)
      simp only [val] at row ⊢
      linear_combination row + 2 ^ 64 * ih

@[simp] theorem val_replicate_zero (n : Nat) : val (List.replicate n 0) = 0 := by
  induction n with
  | zero => rfl
  | succ n ih => rw [List.replicate_succ, val, ih]; rfl

theorem schoolbookMul_val (a b : Limbs) : val (schoolbookMul a b) = val a * val b := by
  rw [schoolbookMul, schoolbookRows_val (by simp), val_replicate_zero, Nat.zero_add]

/-- Settles O35: the rows conserve value, and 2L limbs hold the product. -/
theorem schoolbookMulIsExact : Obligations.SchoolbookMulIsExact := by
  unfold Obligations.SchoolbookMulIsExact
  intro a b h
  have hlen : (schoolbookMul a b).length = 2 * a.length := by rw [schoolbookMul_length]; omega
  refine eq_limbsOf_of_val hlen ?_
  rw [← schoolbookMul_val, Nat.mod_eq_of_lt (hlen ▸ val_lt (schoolbookMul a b))]

/-! ### One iteration of MontReduce (41_montgomery.md R112, R113) -/

/-- The carry runs up the limbs, and what leaves the top limb is lost. -/
theorem propagateCarry_val (t : Limbs) (c : Word) :
    val (propagateCarry t c) = (val t + c.toNat) % 2 ^ (64 * t.length) := by
  induction t generalizing c with
  | nil => simp [propagateCarry, val, Nat.mod_one]
  | cons tk t ih =>
    have htk := tk.isLt
    have hc := c.isLt
    have carry : (BitVec.ofNat 64 ((tk.toNat + c.toNat) / 2 ^ 64)).toNat = (tk.toNat + c.toNat) / 2 ^ 64 := by
      rw [BitVec.toNat_ofNat, Nat.mod_eq_of_lt (by omega)]
    simp only [propagateCarry, val, List.length_cons, two_pow_limbs_succ, ih, carry]
    rw [Nat.mod_mul, BitVec.toNat_ofNat]
    congr 1
    · omega
    · congr 2
      omega

/-- A number in two parts, the lower one below the weight of the upper one, modulo a multiple of that weight. -/
theorem add_mul_mod_mul {low weight : Nat} (hlow : low < weight) (high size : Nat) :
    (low + weight * high) % (weight * size) = low + weight * (high % size) := by
  rw [Nat.mod_mul, Nat.add_mul_mod_self_left, Nat.mod_eq_of_lt hlow, Nat.add_mul_div_left _ _ (by omega),
    Nat.div_eq_of_lt hlow, Nat.zero_add]

theorem montIteration_val {m t : Limbs} (mu : Word) (h : m.length ≤ t.length) :
    val (montIteration m mu t) = (val t + (t.headD 0 * mu).toNat * val m) % 2 ^ (64 * t.length) := by
  have htake : m.length = (t.take m.length).length := by simp [h]
  have row := mulAddLoop_val (t.headD 0 * mu) 0 htake
  have hlow := val_lt (mulAddLoop (t.headD 0 * mu) m (t.take m.length) 0).1
  have hsplit : val t = val (t.take m.length) + 2 ^ (64 * m.length) * val (t.drop m.length) := by
    conv_lhs => rw [← List.take_append_drop m.length t, val_append, ← htake]
  have hsize : 2 ^ (64 * t.length) = 2 ^ (64 * m.length) * 2 ^ (64 * (t.length - m.length)) := by
    rw [← pow_add, ← Nat.mul_add, Nat.add_sub_cancel' h]
  rw [mulAddLoop_length, ← htake, Nat.min_self] at hlow
  simp only [montIteration, val_append, mulAddLoop_length, ← htake, Nat.min_self, propagateCarry_val, List.length_drop]
  rw [hsize, ← add_mul_mod_mul hlow]
  congr 1
  rw [hsplit]
  rw [show (0 : Word).toNat = 0 from rfl, Nat.add_zero] at row
  linear_combination row

/-- Settles O36: row and carry together add `q m`, and the top limb's carry is what the residue leaves out. -/
theorem montIterationDropsTopCarry : Obligations.MontIterationDropsTopCarry := by
  unfold Obligations.MontIterationDropsTopCarry
  intro m t mu h
  exact ⟨montIteration_length m mu t h, montIteration_val mu h⟩

/-! ### The rounds of MontReduce (41_montgomery.md R112, R115, R117) -/

theorem toNat_headD_eq_val_mod (t : Limbs) : (t.headD 0).toNat = val t % 2 ^ 64 := by
  cases t with
  | nil => rfl
  | cons x t => simp [val, Nat.mod_eq_of_lt x.isLt]

theorem val_tail (t : Limbs) : val t.tail = val t / 2 ^ 64 := by
  cases t with
  | nil => rfl
  | cons x t =>
    have hx := x.isLt
    simp only [List.tail_cons, val]
    omega

/-- With the right `mu` the quotient digit makes the lowest limb vanish (41_montgomery.md R115(ii)). -/
theorem quotient_clears_low_limb {m : Nat} {mu : Word} (hmu : (m * mu.toNat + 1) % 2 ^ 64 = 0) (t : Limbs) :
    (val t + (t.headD 0 * mu).toNat * m) % 2 ^ 64 = 0 := by
  have quotient : (t.headD 0 * mu).toNat ≡ val t * mu.toNat [MOD 2 ^ 64] := by
    rw [BitVec.toNat_mul, toNat_headD_eq_val_mod]
    exact (Nat.mod_modEq _ _).trans ((Nat.mod_modEq _ _).mul_right _)
  have cleared : val t + (t.headD 0 * mu).toNat * m ≡ val t * (m * mu.toNat + 1) [MOD 2 ^ 64] := by
    calc val t + (t.headD 0 * mu).toNat * m
        ≡ val t + val t * mu.toNat * m [MOD 2 ^ 64] := (quotient.mul_right m).add_left _
      _ = val t * (m * mu.toNat + 1) := by ring
  exact cleared.trans ((show m * mu.toNat + 1 ≡ 0 [MOD 2 ^ 64] from hmu).mul_left (val t))

/-- While no carry leaves the top limb, `n` rounds add a multiple `Q m` of the modulus and drop the `n` lowest limbs;
with the right `mu` the dropped limbs are zero. -/
theorem montRounds_val {m : Limbs} (mu : Word) {n : Nat} {t : Limbs} (hlen : m.length + n ≤ t.length)
    (hsize : val t + 2 ^ (64 * n) * val m < 2 ^ (64 * t.length) + val m) :
    ∃ Q low, Q < 2 ^ (64 * n) ∧ val t + Q * val m = low + 2 ^ (64 * n) * val (montRounds m mu n t)
      ∧ ((val m * mu.toNat + 1) % 2 ^ 64 = 0 → low = 0) := by
  induction n generalizing t with
  | zero => exact ⟨0, 0, by simp, by simp [montRounds], fun _ => rfl⟩
  | succ n ih =>
    have hq : (t.headD 0 * mu).toNat * val m + val m ≤ 2 ^ 64 * val m := by
      rw [← Nat.succ_mul]
      exact Nat.mul_le_mul_right _ (t.headD 0 * mu).isLt
    have hpow := Nat.two_pow_pos (64 * n)
    rw [two_pow_limbs_succ] at hsize ⊢
    have hone : 2 ^ 64 * val m ≤ 2 ^ 64 * 2 ^ (64 * n) * val m :=
      Nat.mul_le_mul_right _ (Nat.le_mul_of_pos_right _ hpow)
    have iteration : val (montIteration m mu t) = val t + (t.headD 0 * mu).toNat * val m := by
      rw [montIteration_val mu (by omega), Nat.mod_eq_of_lt (by omega)]
    have htail : (montIteration m mu t).tail.length + 1 = t.length := by
      rw [List.length_tail, montIteration_length m mu t (by omega)]
      omega
    have digits : val (montIteration m mu t) % 2 ^ 64 + 2 ^ 64 * val (montIteration m mu t).tail
        = val (montIteration m mu t) := by rw [val_tail, Nat.mod_add_div]
    obtain ⟨Q, low, hQ, hsum, hlow⟩ := ih (t := (montIteration m mu t).tail) (by omega) (by
      rw [← htail, two_pow_limbs_succ] at hsize
      rw [Nat.mul_assoc] at hsize
      omega)
    refine ⟨(t.headD 0 * mu).toNat + 2 ^ 64 * Q, val (montIteration m mu t) % 2 ^ 64 + 2 ^ 64 * low, ?_, ?_, ?_⟩
    · have hq := (t.headD 0 * mu).isLt
      omega
    · rw [montRounds]
      linear_combination 2 ^ 64 * hsum - digits - iteration
    · intro hmu
      rw [hlow hmu, iteration, quotient_clears_low_limb hmu]
      rfl

/-! ### MontMul (41_montgomery.md R114, R115, R117) -/

/-- One subtraction takes the residue of a value below twice the modulus. -/
theorem reduceOnce_val {r m : Limbs} (hlen : r.length = m.length) (h : val r < 2 * val m) :
    val (reduceOnce r m) = val r % val m := by
  rw [reduceOnce, if_congr (compareLimbs_less_iff hlen) rfl rfl]
  split_ifs with hlt
  · exact (Nat.mod_eq_of_lt hlt).symm
  · have conserved := subWithBorrow_val hlen
    have bound := subWithBorrow_val_lt hlen
    have noBorrow : (subWithBorrow r m).2 = false :=
      Bool.eq_false_iff.mpr (mt (subWithBorrow_borrow_iff hlen).mp hlt)
    rw [noBorrow, Bool.toNat_false, Nat.mul_zero] at conserved
    rw [Nat.mod_eq_sub_mod (by omega), Nat.mod_eq_of_lt (by omega)]
    omega

section
variable {L : Nat} {m a b : Limbs}

/-- What MontMul computes, for any `mu`: the residue of the rounded-down quotient `(a b + Q m) / R`, which is exact with
the right `mu`. The product stays below `m R`, so no carry leaves the top limb and one subtraction is enough. -/
theorem montMul_val (mu : Word) (hm : m.length = L) (ha : a.length = L) (hb : b.length = L)
    (hsize : 2 * val m ≤ 2 ^ (64 * L)) (hproduct : val a * val b < val m * 2 ^ (64 * L)) :
    ∃ Q low r, val a * val b + Q * val m = low + 2 ^ (64 * L) * r ∧ val (montMul a b m mu) = r % val m
      ∧ ((val m * mu.toNat + 1) % 2 ^ 64 = 0 → low = 0) := by
  have hlen : (schoolbookMul a b).length = L + L := by rw [schoolbookMul_length, ha, hb]
  have hR : 2 ^ (64 * (L + L)) = 2 ^ (64 * L) * 2 ^ (64 * L) := by rw [← pow_add, ← Nat.mul_add]
  have hsquare : 2 * (2 ^ (64 * L) * val m) ≤ 2 ^ (64 * (L + L)) := by
    rw [hR, Nat.mul_left_comm]
    exact Nat.mul_le_mul_left _ hsize
  obtain ⟨Q, low, hQ, hsum, hlow⟩ := montRounds_val mu (m := m) (n := L) (t := schoolbookMul a b) (by omega) (by
    rw [schoolbookMul_val, hlen]
    rw [Nat.mul_comm (val m)] at hproduct
    omega)
  rw [schoolbookMul_val] at hsum
  refine ⟨Q, low, val (montRounds m mu L (schoolbookMul a b)), hsum, ?_, hlow⟩
  have hrounds : (montRounds m mu L (schoolbookMul a b)).length = m.length := by
    rw [montRounds_length _ _ _ _ (by omega)]
    omega
  have hlt : val (montRounds m mu L (schoolbookMul a b)) < 2 * val m := by
    have hQm : Q * val m ≤ val m * 2 ^ (64 * L) := by
      rw [Nat.mul_comm]
      exact Nat.mul_le_mul_left _ hQ.le
    refine Nat.lt_of_mul_lt_mul_left (a := 2 ^ (64 * L)) ?_
    calc 2 ^ (64 * L) * val (montRounds m mu L (schoolbookMul a b))
        ≤ val a * val b + Q * val m := by omega
      _ < val m * 2 ^ (64 * L) + val m * 2 ^ (64 * L) := by omega
      _ = 2 ^ (64 * L) * (2 * val m) := by ring
  rw [montMul, montReduce, hm, reduceOnce_val hrounds hlt]

/-- Reduced operands have a product in the range of the contract (41_montgomery.md R115(iii)). -/
theorem product_lt_of_reduced (hsize : 2 * val m ≤ 2 ^ (64 * L)) (ha : val a < val m) (hb : val b < val m) :
    val a * val b < val m * 2 ^ (64 * L) :=
  Nat.mul_lt_mul'' ha (by omega)

end

/-- Settles O38: the residue is below the modulus whatever `mu` is. -/
theorem wrongMuStaysReduced : Obligations.WrongMuStaysReduced := by
  unfold Obligations.WrongMuStaysReduced
  rintro L m a b mu hm hsize ⟨ha, hlta⟩ ⟨hb, hltb⟩
  obtain ⟨Q, low, r, -, hval, -⟩ := montMul_val mu hm ha hb hsize (product_lt_of_reduced hsize hlta hltb)
  refine ⟨?_, ?_⟩
  · rw [montMul_length a b m mu (by omega) (by omega), hm]
  · rw [hval]
    exact Nat.mod_lt _ (by omega)

/-! ### The contract (41_montgomery.md R115, R119) -/

section
variable {L : Nat} {m a b : Limbs} {mu : Word}

theorem MontModulus.pos (h : MontModulus L m mu) : 0 < val m := by
  obtain ⟨-, hodd, -, -⟩ := h
  omega

/-- R is invertible modulo an odd modulus. -/
theorem MontModulus.coprime (h : MontModulus L m mu) : Nat.Coprime (2 ^ (64 * L)) (val m) := by
  obtain ⟨-, hodd, -, -⟩ := h
  exact Nat.Coprime.pow_left _ ((Nat.coprime_two_left).mpr (Nat.odd_iff.mpr hodd))

/-- MontMul under the contract: reduced, and congruent to `a b` after multiplication by R. -/
theorem montMul_contract (h : MontModulus L m mu) (ha : a.length = L) (hb : b.length = L)
    (hproduct : val a * val b < val m * 2 ^ (64 * L)) :
    val (montMul a b m mu) < val m ∧ val (montMul a b m mu) * 2 ^ (64 * L) ≡ val a * val b [MOD val m] := by
  have hpos := h.pos
  obtain ⟨hm, -, hmu, hsize⟩ := h
  obtain ⟨Q, low, r, hsum, hval, hlow⟩ := montMul_val mu hm ha hb hsize hproduct
  refine ⟨hval ▸ Nat.mod_lt _ hpos, ?_⟩
  rw [hlow hmu, Nat.zero_add] at hsum
  calc val (montMul a b m mu) * 2 ^ (64 * L)
      ≡ r * 2 ^ (64 * L) [MOD val m] := by rw [hval]; exact (Nat.mod_modEq _ _).mul_right _
    _ = val a * val b + Q * val m := by rw [hsum, Nat.mul_comm]
    _ ≡ val a * val b [MOD val m] := Nat.add_mul_modulus_modEq_iff.mpr rfl

/-- Settles O37: the weaker form of (iii) is the one the proof needs. -/
theorem montgomeryContract : Obligations.MontgomeryContract := by
  unfold Obligations.MontgomeryContract
  intro L m a b mu h ha hb hoperands
  have hproduct : val a * val b < val m * 2 ^ (64 * L) := by
    rcases hoperands with ⟨hlta, hltb⟩ | hproduct
    · obtain ⟨-, -, -, hsize⟩ := h
      exact product_lt_of_reduced hsize hlta hltb
    · exact hproduct
  obtain ⟨hlt, hcongr⟩ := montMul_contract h ha hb hproduct
  refine ⟨hlt, hcongr, fun Rinv hinv => ?_⟩
  have hinv : 2 ^ (64 * L) * Rinv ≡ 1 [MOD val m] := hinv
  have hvalue : val (montMul a b m mu) ≡ val a * val b * Rinv [MOD val m] := by
    calc val (montMul a b m mu)
        = val (montMul a b m mu) * 1 := (Nat.mul_one _).symm
      _ ≡ val (montMul a b m mu) * (2 ^ (64 * L) * Rinv) [MOD val m] := (hinv.symm).mul_left _
      _ = val (montMul a b m mu) * 2 ^ (64 * L) * Rinv := (Nat.mul_assoc _ _ _).symm
      _ ≡ val a * val b * Rinv [MOD val m] := hcongr.mul_right _
  rw [← hvalue, Nat.mod_eq_of_lt hlt]

/-- Bound and congruence leave one value: R cancels modulo the modulus. -/
theorem montMul_eq_limbsOf (h : MontModulus L m mu) (ha : a.length = L) (hb : b.length = L)
    (hproduct : val a * val b < val m * 2 ^ (64 * L)) {v : Nat} (hv : v < val m)
    (hcongr : v * 2 ^ (64 * L) ≡ val a * val b [MOD val m]) : montMul a b m mu = limbsOf L v := by
  obtain ⟨hlt, hresult⟩ := montMul_contract h ha hb hproduct
  have hcancel : val (montMul a b m mu) ≡ v [MOD val m] :=
    Nat.ModEq.cancel_right_of_coprime h.coprime.symm (hresult.trans hcongr.symm)
  obtain ⟨hm, -, -, hsize⟩ := h
  refine eq_limbsOf_of_val (by rw [montMul_length a b m mu (by omega) (by omega), hm]) ?_
  rw [Nat.ModEq.eq_of_lt_of_lt hcancel hlt hv, Nat.mod_eq_of_lt (by omega)]

/-! ### Montgomery forms (41_montgomery.md R119) -/

@[simp] theorem montForm_length (L : Nat) (m : Limbs) (x : Nat) : (montForm L m x).length = L := limbsOf_length L _

theorem montForm_val (h : MontModulus L m mu) (x : Nat) : val (montForm L m x) = x * 2 ^ (64 * L) % val m := by
  have hlt := Nat.mod_lt (x * 2 ^ (64 * L)) h.pos
  obtain ⟨-, -, -, hsize⟩ := h
  rw [montForm, val_limbsOf, Nat.mod_eq_of_lt (by omega)]

theorem montForm_reduced (h : MontModulus L m mu) (x : Nat) : Reduced L m (montForm L m x) :=
  ⟨montForm_length L m x, montForm_val h x ▸ Nat.mod_lt _ h.pos⟩

theorem montMul_montForm (h : MontModulus L m mu) (x y : Nat) :
    montMul (montForm L m x) (montForm L m y) m mu = montForm L m (x * y % val m) := by
  obtain ⟨hlenx, hltx⟩ := montForm_reduced h x
  obtain ⟨hleny, hlty⟩ := montForm_reduced h y
  obtain ⟨-, -, -, hsize⟩ := id h
  have hproduct := product_lt_of_reduced hsize hltx hlty
  refine montMul_eq_limbsOf h hlenx hleny hproduct (Nat.mod_lt _ h.pos) ?_
  rw [montForm_val h, montForm_val h]
  calc x * y % val m * 2 ^ (64 * L) % val m * 2 ^ (64 * L)
      ≡ x * y * 2 ^ (64 * L) * 2 ^ (64 * L) [MOD val m] :=
        ((Nat.mod_modEq _ _).trans ((Nat.mod_modEq _ _).mul_right _)).mul_right _
    _ = x * 2 ^ (64 * L) * (y * 2 ^ (64 * L)) := by ring
    _ ≡ x * 2 ^ (64 * L) % val m * (y * 2 ^ (64 * L) % val m) [MOD val m] :=
        ((Nat.mod_modEq _ _).mul (Nat.mod_modEq _ _)).symm

end

/-- Settles O39: each right side is a reduced value that is congruent to the product after multiplication by R. -/
theorem montgomeryRoundTrip : Obligations.MontgomeryRoundTrip := by
  unfold Obligations.MontgomeryRoundTrip
  intro L m mu h
  have hpos := h.pos
  obtain ⟨hm, -, -, hsize⟩ := id h
  have hR : 1 < 2 ^ (64 * L) := by omega
  refine ⟨montMul_montForm h, fun z hz => ?_, fun a b ⟨ha, hlta⟩ ⟨hb, hltb⟩ => ?_, ?_⟩
  · have hone : val (limbsOf L 1) = 1 := by rw [val_limbsOf, Nat.mod_eq_of_lt hR]
    obtain ⟨hlen, hlt⟩ := montForm_reduced h z
    refine montMul_eq_limbsOf h hlen (limbsOf_length L 1) ?_ hz ?_
    · rw [hone]
      exact Nat.mul_lt_mul'' hlt hR
    · rw [hone, Nat.mul_one, montForm_val h]
      exact (Nat.mod_modEq _ _).symm
  · exact (montMul_contract h ha hb (product_lt_of_reduced hsize hlta hltb)).1
  · have hform : limbsOf L (2 ^ (64 * L) % val m) = montForm L m 1 := by rw [montForm, Nat.one_mul]
    rw [hform, montMul_montForm h, Nat.one_mul, montForm, montForm]
    congr 1
    exact (Nat.mod_modEq 1 (val m)).mul_right _

end Sys2Proof.Machine
end

section
/-! Field addition and subtraction and the butterfly (43_ntt_butterfly.md R141 to R148): the values of ModAdd and ModSub
on all operands, then on reduced ones, where they are residues and the butterfly's identities are identities of the
integers modulo `m`. -/

namespace Sys2Proof.Machine

section
variable {a b m : Limbs}

/-! ### The value on all operands -/

theorem subWithBorrow_val_mod (h : a.length = b.length) :
    val (subWithBorrow a b).1 = (2 ^ (64 * a.length) + val a - val b) % 2 ^ (64 * a.length) := by
  rw [subWithBorrow_eq_limbsOf_add_sub h, val_limbsOf]

theorem modAdd_val (ha : a.length = m.length) (hb : b.length = m.length) :
    val (modAdd a b m) =
      if 2 ^ (64 * m.length) ≤ val a + val b ∨ val m ≤ (val a + val b) % 2 ^ (64 * m.length) then
        (2 ^ (64 * m.length) + (val a + val b) % 2 ^ (64 * m.length) - val m) % 2 ^ (64 * m.length)
      else (val a + val b) % 2 ^ (64 * m.length) := by
  have hab : a.length = b.length := ha.trans hb.symm
  have hlen : (addWithCarry a b).1.length = m.length := by simp [ha, hb]
  have hsum : (val a + val b) % 2 ^ (64 * m.length) = val (addWithCarry a b).1 := ha ▸ (addWithCarry_divMod hab).2
  have hcarry : (addWithCarry a b).2 = true ↔ 2 ^ (64 * m.length) ≤ val a + val b := ha ▸ addWithCarry_carry_iff hab
  have hreaches : compareLimbs (addWithCarry a b).1 m ≠ .less ↔ val m ≤ val (addWithCarry a b).1 := by
    rw [ne_eq, compareLimbs_less_iff hlen, Nat.not_lt]
  have hdifference := subWithBorrow_val_mod hlen
  rw [hlen] at hdifference
  rw [modAdd, apply_ite val, if_congr (or_congr hcarry hreaches) hdifference rfl, hsum]

theorem modSub_val (ha : a.length = m.length) (hb : b.length = m.length) :
    val (modSub a b m) =
      if val a < val b then (2 ^ (64 * m.length) + val a - val b + val m) % 2 ^ (64 * m.length)
      else val a - val b := by
  have hab : a.length = b.length := ha.trans hb.symm
  have hlen : (subWithBorrow a b).1.length = m.length := by simp [ha, hb]
  have conserved := subWithBorrow_val hab
  have bound := subWithBorrow_val_lt hab
  rw [ha] at conserved bound
  have hsum := (addWithCarry_divMod hlen).2
  rw [hlen] at hsum
  rw [modSub, apply_ite val, if_congr (subWithBorrow_borrow_iff hab) hsum.symm rfl]
  split_ifs with hlt
  · rw [(subWithBorrow_borrow_iff hab).mpr hlt, Bool.toNat_true, Nat.mul_one] at conserved
    rw [show val (subWithBorrow a b).1 = 2 ^ (64 * m.length) + val a - val b by omega]
  · rw [Bool.eq_false_iff.mpr (mt (subWithBorrow_borrow_iff hab).mp hlt), Bool.toNat_false, Nat.mul_zero] at conserved
    omega

/-! ### The value on reduced operands -/

/-- The residue of a number below twice the modulus. -/
theorem mod_of_lt_two_mul {x n : Nat} (h : x < 2 * n) : x % n = if n ≤ x then x - n else x := by
  split_ifs with hle
  · rw [Nat.mod_eq_sub_mod hle, Nat.mod_eq_of_lt (by omega)]
  · exact Nat.mod_eq_of_lt (by omega)

theorem modAdd_val_of_reduced (ha : Reduced m.length m a) (hb : Reduced m.length m b) :
    val (modAdd a b m) = (val a + val b) % val m := by
  obtain ⟨hlena, hlta⟩ := ha
  obtain ⟨hlenb, hltb⟩ := hb
  have hm := val_lt m
  rw [modAdd_val hlena hlenb, mod_of_lt_two_mul (x := val a + val b) (n := val m) (by omega),
    mod_of_lt_two_mul (x := val a + val b) (by omega)]
  by_cases hover : 2 ^ (64 * m.length) ≤ val a + val b
  · rw [if_pos (.inl hover), if_pos hover, if_pos (by omega), Nat.mod_eq_of_lt (by omega)]
    omega
  · rw [if_neg hover]
    by_cases hreaches : val m ≤ val a + val b
    · rw [if_pos (.inr hreaches), if_pos hreaches,
        show 2 ^ (64 * m.length) + (val a + val b) - val m = 2 ^ (64 * m.length) + (val a + val b - val m) by omega,
        Nat.add_mod_left, Nat.mod_eq_of_lt (by omega)]
    · rw [if_neg (by omega), if_neg hreaches]

theorem modSub_val_of_reduced (ha : Reduced m.length m a) (hb : Reduced m.length m b) :
    (val (modSub a b m) : Int) = ((val a : Int) - (val b : Int)) % (val m : Int) := by
  obtain ⟨hlena, hlta⟩ := ha
  obtain ⟨hlenb, hltb⟩ := hb
  have hm := val_lt m
  rw [modSub_val hlena hlenb]
  split_ifs with hlt
  · rw [show 2 ^ (64 * m.length) + val a - val b + val m = 2 ^ (64 * m.length) + (val a + val m - val b) by omega,
      Nat.add_mod_left, Nat.mod_eq_of_lt (by omega), ← Int.add_emod_right, Int.emod_eq_of_lt (by omega) (by omega)]
    omega
  · rw [Int.emod_eq_of_lt (by omega) (by omega)]
    omega

/-- Settles O44: on reduced operands the subtraction takes the residue, whether a carry or the size calls for it. -/
theorem modAddIsFieldAddition : Obligations.ModAddIsFieldAddition := by
  unfold Obligations.ModAddIsFieldAddition
  intro a b m ha hb
  exact ⟨modAdd_length a b m ha hb, fun hlta hltb => modAdd_val_of_reduced ⟨ha, hlta⟩ ⟨hb, hltb⟩, modAdd_val ha hb⟩

/-- Settles O45: on reduced operands a borrow is made up by one addition of the modulus. -/
theorem modSubIsFieldSubtraction : Obligations.ModSubIsFieldSubtraction := by
  unfold Obligations.ModSubIsFieldSubtraction
  intro a b m ha hb
  exact ⟨modSub_length a b m ha hb, fun hlta hltb => modSub_val_of_reduced ⟨ha, hlta⟩ ⟨hb, hltb⟩, modSub_val ha hb⟩

/-! ### Field elements -/

/-- The sum in the integers, where it can stand beside the difference. -/
theorem modAdd_val_cast (ha : Reduced m.length m a) (hb : Reduced m.length m b) :
    (val (modAdd a b m) : Int) = ((val a : Int) + (val b : Int)) % (val m : Int) := by
  rw [modAdd_val_of_reduced ha hb, Int.natCast_mod, Nat.cast_add]

theorem modAdd_reduced (ha : Reduced m.length m a) (hb : Reduced m.length m b) :
    Reduced m.length m (modAdd a b m) := by
  have hmod := Nat.mod_lt (val a + val b) (Nat.zero_lt_of_lt ha.2)
  exact ⟨modAdd_length a b m ha.1 hb.1, modAdd_val_of_reduced ha hb ▸ hmod⟩

theorem modSub_reduced (ha : Reduced m.length m a) (hb : Reduced m.length m b) :
    Reduced m.length m (modSub a b m) := by
  have hpos : (0 : Int) < val m := Int.natCast_pos.mpr (Nat.zero_lt_of_lt ha.2)
  have hmod := Int.emod_lt_of_pos ((val a : Int) - (val b : Int)) hpos
  rw [← modSub_val_of_reduced ha hb] at hmod
  exact ⟨modSub_length a b m ha.1 hb.1, Int.ofNat_lt.mp hmod⟩

theorem montMul_reduced {mu : Word} (h : MontModulus m.length m mu) (ha : Reduced m.length m a)
    (hb : Reduced m.length m b) : Reduced m.length m (montMul a b m mu) := by
  obtain ⟨-, -, -, hsize⟩ := id h
  exact ⟨montMul_length a b m mu ha.1 hb.1, (montMul_contract h ha.1 hb.1 (product_lt_of_reduced hsize ha.2 hb.2)).1⟩

/-- Field elements that are congruent in the integers are the same limbs. -/
theorem eq_of_val_emod {x y : Limbs} (hx : Reduced m.length m x) (hy : Reduced m.length m y)
    (h : (val x : Int) ≡ (val y : Int) [ZMOD (val m : Int)]) : x = y :=
  val_inj (hx.1.trans hy.1.symm) (Nat.ModEq.eq_of_lt_of_lt (Int.natCast_modEq_iff.mp h) hx.2 hy.2)

theorem modAdd_modEq (ha : Reduced m.length m a) (hb : Reduced m.length m b) :
    (val (modAdd a b m) : Int) ≡ (val a : Int) + (val b : Int) [ZMOD (val m : Int)] :=
  modAdd_val_cast ha hb ▸ Int.mod_modEq _ _

theorem modSub_modEq (ha : Reduced m.length m a) (hb : Reduced m.length m b) :
    (val (modSub a b m) : Int) ≡ (val a : Int) - (val b : Int) [ZMOD (val m : Int)] :=
  modSub_val_of_reduced ha hb ▸ Int.mod_modEq _ _

end

/-! ### The butterfly -/

/-- Settles O47: (e + t) + (e - t) = 2e and (e + t) - (e - t) = 2t in the integers modulo `m`. -/
theorem butterflySelfConsistency : Obligations.ButterflySelfConsistency := by
  unfold Obligations.ButterflySelfConsistency
  rintro L m e o tw mu h he ho htw
  obtain rfl : m.length = L := h.1
  have ht := montMul_reduced h htw ho
  have hsum := modAdd_reduced he ht
  have hdifference := modSub_reduced he ht
  rw [bfly]
  constructor
  · refine eq_of_val_emod (modAdd_reduced hsum hdifference) (modAdd_reduced he he) ?_
    refine (modAdd_modEq hsum hdifference).trans (.trans ?_ (modAdd_modEq he he).symm)
    convert (modAdd_modEq he ht).add (modSub_modEq he ht) using 1
    ring
  · refine eq_of_val_emod (modSub_reduced hsum hdifference) (modAdd_reduced ht ht) ?_
    refine (modSub_modEq hsum hdifference).trans (.trans ?_ (modAdd_modEq ht ht).symm)
    convert (modAdd_modEq he ht).sub (modSub_modEq he ht) using 1
    ring

section
variable {m : Limbs} {mu : Word}

/-- The Montgomery form as a residue in the integers. -/
theorem montForm_modEq (h : MontModulus m.length m mu) (x : Nat) :
    (val (montForm m.length m x) : Int) ≡ x * 2 ^ (64 * m.length) [ZMOD (val m : Int)] := by
  have residue : val (montForm m.length m x) ≡ x * 2 ^ (64 * m.length) [MOD val m] :=
    montForm_val h x ▸ Nat.mod_modEq _ _
  exact_mod_cast residue

/-- ModAdd adds Montgomery forms (43_ntt_butterfly.md R143). -/
theorem modAdd_montForm (h : MontModulus m.length m mu) (x y : Nat) :
    modAdd (montForm m.length m x) (montForm m.length m (y % val m)) m = montForm m.length m ((x + y) % val m) := by
  have hx := montForm_reduced h x
  have hy := montForm_reduced h (y % val m)
  refine eq_of_val_emod (modAdd_reduced hx hy) (montForm_reduced h _) ?_
  refine (modAdd_modEq hx hy).trans (.trans ?_ (montForm_modEq h _).symm)
  refine ((montForm_modEq h x).add (montForm_modEq h _)).trans ?_
  rw [← add_mul, Int.natCast_mod, Int.natCast_mod, Nat.cast_add]
  exact (((Int.mod_modEq (y : Int) _).add_left _).trans (Int.mod_modEq _ _).symm).mul_right _

/-- ModSub subtracts Montgomery forms (43_ntt_butterfly.md R143). -/
theorem modSub_montForm (h : MontModulus m.length m mu) (x y : Nat) :
    modSub (montForm m.length m x) (montForm m.length m (y % val m)) m
      = montForm m.length m (((x : Int) - (y : Int)) % (val m : Int)).toNat := by
  have hx := montForm_reduced h x
  have hy := montForm_reduced h (y % val m)
  have hpos : (val m : Int) ≠ 0 := Int.natCast_ne_zero.mpr h.pos.ne'
  refine eq_of_val_emod (modSub_reduced hx hy) (montForm_reduced h _) ?_
  refine (modSub_modEq hx hy).trans (.trans ?_ (montForm_modEq h _).symm)
  refine ((montForm_modEq h x).sub (montForm_modEq h _)).trans ?_
  rw [← sub_mul, Int.natCast_mod, Int.toNat_of_nonneg (Int.emod_nonneg _ hpos)]
  exact (((Int.mod_modEq (y : Int) _).sub_left _).trans (Int.mod_modEq _ _).symm).mul_right _

end

/-- Settles O46: the products, sums and differences of Montgomery forms are Montgomery forms. -/
theorem butterflyFieldMeaning : Obligations.ButterflyFieldMeaning := by
  unfold Obligations.ButterflyFieldMeaning
  refine fun L m mu => ⟨fun e o tw => rfl, fun h x y z => ?_⟩
  obtain rfl : m.length = L := h.1
  refine ⟨montMul_montForm h z y, ?_⟩
  rw [bfly, montMul_montForm h z y, modAdd_montForm h, modSub_montForm h]

end Sys2Proof.Machine
end

section
/-! The commands on arrays of limbs (41_montgomery.md R116; 42_batch_montmul.md R131 to R133; 43_ntt_butterfly.md R145;
20_memory.md R44 to R49): what is read back from the words a command writes, element by element. -/

namespace Sys2Proof.Machine

/-! ### Elements of an array -/

/-- Element `i` lies within the array (20_memory.md R44). -/
theorem elem_le {i n : Nat} (hi : i < n) (L : Nat) : i * L + L ≤ n * L := by
  rw [← Nat.succ_mul]
  exact Nat.mul_le_mul_right L hi

theorem readWords_writeWords_of_apart {p q n : Nat} {vs : List Word} (h : Apart p vs.length q n) (m : Memory) :
    readWords (writeWords m p vs) q n = readWords m q n :=
  readWords_congr fun k hk => readWord_writeWords_out _ _ _ _ (by omega)

/-- Writing one array leaves an element of another array as it was, if the arrays are apart. -/
theorem readElem_writeWords_of_apart {p q L i n : Nat} {vs : List Word} (hlen : vs.length = n * L)
    (h : Apart q (n * L) p (n * L)) (hi : i < n) (m : Memory) :
    readElem (writeWords m p vs) q L i = readElem m q L i := by
  have inside := elem_le hi L
  refine readWords_writeWords_of_apart ?_ m
  omega

/-- Words in the middle of what was written. -/
theorem readWords_writeWords_middle (m : Memory) (p : Nat) (before middle after : List Word) :
    readWords (writeWords m p (before ++ middle ++ after)) (p + before.length) middle.length = middle := by
  apply List.ext_getElem (readWords_length _ _ _)
  intro k hread hk
  have hbound : before.length + k < (before ++ middle ++ after).length := by simp; omega
  rw [readWords_getElem, Nat.add_assoc, readWord_writeWords _ _ _ _ hbound,
    List.getElem_append_left (by simpa using hk), List.getElem_append_right (Nat.le_add_right _ _)]
  simp

/-- An array written element by element is read back element by element. -/
theorem readElem_writeWords_flatMap {g : Nat → Limbs} {L n i : Nat} (hg : ∀ i, (g i).length = L) (hi : i < n)
    (m : Memory) (p : Nat) : readElem (writeWords m p ((List.range n).flatMap g)) p L i = g i := by
  obtain ⟨k, rfl⟩ := Nat.exists_eq_add_of_lt hi
  have split : (List.range (i + k + 1)).flatMap g
      = (List.range i).flatMap g ++ g i ++ ((List.range k).map (i + 1 + ·)).flatMap g := by
    rw [Nat.add_right_comm, List.range_add, List.range_succ]
    simp only [List.flatMap_append, List.flatMap_singleton]
  have middle := readWords_writeWords_middle m p ((List.range i).flatMap g) (g i)
    (((List.range k).map (i + 1 + ·)).flatMap g)
  rw [flatMap_range_length g L i hg, hg] at middle
  rw [split]
  exact middle

/-! ### Commands that complete with RSP = 0 -/

theorem rspWord_ok : rspWord .ok false none = 0 := rfl

/-- Settles O40: MontMul has as many limbs as DST, so DST reads back as it. -/
theorem montmulWritesMontMul : Obligations.MontmulWritesMontMul := by
  unfold Obligations.MontmulWritesMontMul
  intro f s hlegal L
  have hexec := exec_of_legal hlegal
  refine ⟨_, hexec, ?_, rspWord_ok, exec_latch hexec, exec_keepsHost hexec, (exec_writesIn hexec).keepsBytesOutside⟩
  exact readWords_writeWords_of_length (by rw [montMul_length] <;> simp [L]) _ _

/-- Settles O41: the contract holds of the operands read, and the modulus lies apart from DST. -/
theorem montmulFieldProduct : Obligations.MontmulFieldProduct := by
  unfold Obligations.MontmulFieldProduct
  intro f s hlegal L m a b hcontract hlta hltb
  obtain ⟨t, hexec, hdst, -, -, -, hframe⟩ := montmulWritesMontMul f s hlegal
  have ha : a.length = L := readWords_length _ _ _
  have hb : b.length = L := readWords_length _ _ _
  obtain ⟨hlt, hcongr, -⟩ := montgomeryContract L m a b f.mu hcontract ha hb (.inl ⟨hlta, hltb⟩)
  obtain ⟨-, -, -, -, hapart⟩ := hlegal
  refine ⟨t, hexec, ?_, ?_, ?_⟩
  · rw [hdst]; exact hlt
  · rw [hdst]; exact hcongr
  · refine readWords_congr fun k hk => readWord_congr fun j hj => hframe _ ?_
    have hk : k < limbCount f.hdr := hk
    omega

/-- Settles O42: the products are written one after the other, each of L limbs. -/
theorem batchConsistency : Obligations.BatchConsistency := by
  unfold Obligations.BatchConsistency
  intro f s hlegal hsupported L
  have hexec := exec_of_legal hlegal
  refine ⟨_, hexec, fun i hi => ?_, rspWord_ok, exec_latch hexec, exec_keepsHost hexec,
    (exec_writesIn hexec).keepsBytesOutside⟩
  have hresult : batchResult f s.mem = (List.range f.count.toNat).flatMap (batchElem f s.mem) :=
    if_pos ((limbsSupported_iff f.hdr).mpr hsupported)
  have helem := readElem_writeWords_flatMap (batchElem_length f s.mem) hi s.mem f.dst.toNat
  rw [← hresult] at helem
  exact helem

/-- Settles O43: the words written are COUNT x L zeros. -/
theorem batchZeroFill : Obligations.BatchZeroFill := by
  unfold Obligations.BatchZeroFill
  intro f s hlegal hunsupported n
  have hexec := exec_of_legal hlegal
  refine ⟨_, hexec, fun k hk => ?_, rspWord_ok, exec_latch hexec, exec_keepsHost hexec,
    (exec_writesIn hexec).keepsBytesOutside⟩
  have hresult : batchResult f s.mem = List.replicate n 0 := if_neg (mt (limbsSupported_iff f.hdr).mp hunsupported)
  have hmem : (ruleOf (.bmontmul f) s).mem = writeWords s.mem f.dst.toNat (List.replicate n 0) :=
    congrArg (writeWords s.mem f.dst.toNat) hresult
  rw [hmem, readWord_writeWords _ _ _ _ (by simpa using hk), List.getElem_replicate]

/-- Settles O48: the outputs are apart, so the second array written leaves the first as it is. -/
theorem nttbflyWritesButterflies : Obligations.NttbflyWritesButterflies := by
  unfold Obligations.NttbflyWritesButterflies
  intro f s hlegal L m
  have hexec := exec_of_legal hlegal
  refine ⟨_, hexec, fun i hi => ?_, rspWord_ok, exec_latch hexec, exec_keepsHost hexec, fun a heven hodd => ?_⟩
  · have even := readElem_writeWords_flatMap (fun i => (bflyElem_length f s.mem i).1) hi s.mem f.outEven.toNat
    have odd := readElem_writeWords_flatMap (fun i => (bflyElem_length f s.mem i).2) hi
      (writeWords s.mem f.outEven.toNat (bflyEvens f s.mem)) f.outOdd.toNat
    obtain ⟨-, -, hapart, -⟩ := hlegal
    exact ⟨(readElem_writeWords_of_apart (bflyOdds_length f s.mem) hapart hi _).trans even, odd⟩
  · refine (exec_writesIn hexec).readByte_eq fun x hx => ?_
    rcases List.mem_pair.mp hx with rfl | rfl
    · exact heven
    · exact hodd

/-! ### Zero counts -/

theorem writeWords_of_length_zero {vs : List Word} (h : vs.length = 0) (m : Memory) (p : Nat) :
    writeWords m p vs = m := by
  rw [List.length_eq_zero_iff.mp h, writeWords]

theorem addPoints_eq_self {f : FormatBA} {pre m : Memory} (h : ∀ k, addPoint f pre k m = m) (n : Nat) :
    addPoints f pre n m = m := by
  induction n with
  | zero => rfl
  | succ k ih => rw [addPoints, ih, h]

/-- A point is skipped where there is no bucket, and adds nothing where it has no slot. -/
theorem addPoint_eq_self {f : FormatBA} (h : f.numBuckets = 0 ∨ f.coordSize = 0 ∨ f.hdr.window = 0) (pre m : Memory)
    (k : Nat) : addPoint f pre k m = m := by
  rcases h with hbuckets | hslots | hwindow
  · rcases addPoint_cases f pre k m with ⟨hskip, -⟩ | ⟨-, hne, hle⟩
    · exact hskip
    · rw [hbuckets] at hle
      exact absurd (Nat.le_zero.mp hle) hne
  · rcases addPoint_cases f pre k m with ⟨hskip, -⟩ | ⟨hadd, -⟩
    · exact hskip
    · rw [hadd, hslots]
      rfl
  · have hbits : windowBits f.hdr = 0 := by rw [windowBits, hwindow]; rfl
    exact addPoint_of_digit_zero (digitOf_eq_zero pre k hbits) m

theorem addPoints_of_zero_count {f : FormatBA}
    (h : f.numPoints = 0 ∨ f.numBuckets = 0 ∨ f.coordSize = 0 ∨ f.hdr.window = 0) (pre m : Memory) :
    addPoints f pre f.numPoints.toNat m = m := by
  rcases h with hpoints | hother
  · rw [hpoints]
    rfl
  · exact addPoints_eq_self (addPoint_eq_self hother pre m) _

/-- Settles O29: with a zero count the rule writes no word. -/
theorem zeroCountsChangeNothing : Obligations.ZeroCountsChangeNothing := by
  unfold Obligations.ZeroCountsChangeNothing
  refine ⟨fun f s hlegal hzero => ?_, fun f s hlegal hzero => ?_, fun f s hlegal hzero => ?_⟩
  · have hlen : (batchResult f s.mem).length = 0 := by
      rw [batchResult_length, limbCount]
      rcases hzero with hcount | hlimbs
      · simp [hcount]
      · simp [hlimbs]
    rw [exec_of_legal hlegal, ruleOf, ruleBmontmul, writeWords_of_length_zero hlen, complete, rspWord_ok]
  · have hn : f.n.toNat = 0 := by rw [hzero]; rfl
    have hevens : (bflyEvens f s.mem).length = 0 := by rw [bflyEvens_length, hn, Nat.zero_mul]
    have hodds : (bflyOdds f s.mem).length = 0 := by rw [bflyOdds_length, hn, Nat.zero_mul]
    rw [exec_of_legal hlegal, ruleOf, ruleNttbfly, writeWords_of_length_zero hevens, writeWords_of_length_zero hodds,
      complete, rspWord_ok]
  · rw [exec_of_legal hlegal, ruleOf, ruleBktacc, addPoints_of_zero_count hzero, complete, rspWord_ok]

end Sys2Proof.Machine
end

section
/-! The bucket sums of BKTACC (44_msm_bucket.md R162 to R169). One point changes a slot of ACC exactly if the slot is in
the bucket of its digit; over the points a slot gathers the sum of those with its digit, and over the slots the points
are gathered by their digits. -/

namespace Sys2Proof.Machine

/-! ### Two slots of one array -/

/-- A slot of bucket `d` lies among the slots of bucket `e` exactly if the buckets are the same (20_memory.md R44). -/
theorem bucketSlot_mem_iff {p cs d e c : Nat} (hd : 1 ≤ d) (he : 1 ≤ e) (hc : c < cs) :
    (bucketSlot p cs e 0 ≤ bucketSlot p cs d c ∧ bucketSlot p cs d c < bucketSlot p cs e 0 + cs) ↔ e = d := by
  obtain ⟨d, rfl⟩ := Nat.exists_eq_add_of_le' hd
  obtain ⟨e, rfl⟩ := Nat.exists_eq_add_of_le' he
  simp only [bucketSlot, Nat.add_sub_cancel, Nat.add_right_cancel_iff]
  rcases lt_trichotomy d e with hlt | rfl | hgt
  · have rows : (d + 1) * cs ≤ e * cs := Nat.mul_le_mul_right cs hlt
    rw [Nat.succ_mul] at rows
    omega
  · omega
  · have rows : (e + 1) * cs ≤ d * cs := Nat.mul_le_mul_right cs hgt
    rw [Nat.succ_mul] at rows
    omega

/-! ### The points -/

section
variable {f : FormatBA} {pre : Memory} {d c : Nat} (hd : 1 ≤ d) (hle : d ≤ f.numBuckets.toNat)
  (hc : c < f.coordSize.toNat)
include hd hle hc

/-- One point adds its slot to the bucket of its digit and leaves every other bucket (44_msm_bucket.md R162). -/
theorem readWord_addPoint (k : Nat) (m : Memory) :
    readWord (addPoint f pre k m) (bucketSlot f.acc.toNat f.coordSize.toNat d c)
      = readWord m (bucketSlot f.acc.toNat f.coordSize.toNat d c)
        + if digitOf f pre k = d then readWord pre (pointSlot f.pts.toNat f.coordSize.toNat k c) else 0 := by
  rcases addPoint_cases f pre k m with ⟨hskip, hdigit⟩ | ⟨hadd, hne, -⟩
  · rw [hskip, if_neg (by omega), add_zero]
  · rw [hadd, readWord_addPointSlots, if_congr (bucketSlot_mem_iff hd (Nat.one_le_iff_ne_zero.mpr hne) hc) rfl rfl]
    split_ifs with hdigit
    · rw [hdigit, bucketSlot_eq _ _ d c, Nat.add_sub_cancel_left]
    · rw [add_zero]

/-- Over the points a slot gathers the slots of those whose digit is its bucket, modulo 2^64 (44_msm_bucket.md
R163, R164). -/
theorem readWord_addPoints (n : Nat) (m : Memory) :
    (readWord (addPoints f pre n m) (bucketSlot f.acc.toNat f.coordSize.toNat d c)).toNat
      = ((readWord m (bucketSlot f.acc.toNat f.coordSize.toNat d c)).toNat
          + ∑ k ∈ (Finset.range n).filter (fun k => digitOf f pre k = d),
              (readWord pre (pointSlot f.pts.toNat f.coordSize.toNat k c)).toNat) % 2 ^ 64 := by
  induction n with
  | zero =>
    rw [addPoints, Finset.range_zero, Finset.filter_empty, Finset.sum_empty, Nat.add_zero,
      Nat.mod_eq_of_lt (BitVec.isLt _)]
  | succ k ih =>
    rw [addPoints, readWord_addPoint hd hle hc, BitVec.toNat_add, ih, Finset.range_add_one, Finset.filter_insert]
    split_ifs with hdigit
    · rw [Finset.sum_insert (by simp), Nat.mod_add_mod, Nat.add_assoc,
        Nat.add_comm (∑ _ ∈ _, _)]
    · rw [show (0 : Word).toNat = 0 from rfl, Nat.add_zero, Nat.mod_mod]

end

/-- Settles O51: the rule adds the points one by one to the memory as it was. -/
theorem bucketSums : Obligations.BucketSums := by
  unfold Obligations.BucketSums
  intro f s hlegal cs
  have hexec := exec_of_legal hlegal
  exact ⟨_, hexec, fun d c hd hle hc => readWord_addPoints hd hle hc _ _, rspWord_ok, exec_latch hexec,
    exec_keepsHost hexec, (exec_writesIn hexec).keepsBytesOutside⟩

/-! ### Conservation -/

/-- Sums gathered by digit and reduced one by one are the sum over all points whose digit is a bucket. -/
theorem sum_by_digit_mod (digit value : Nat → Nat) (n nb modulus : Nat) :
    (∑ d ∈ Finset.Icc 1 nb, (∑ k ∈ (Finset.range n).filter (fun k => digit k = d), value k) % modulus) % modulus
      = (∑ k ∈ (Finset.range n).filter (fun k => 1 ≤ digit k ∧ digit k ≤ nb), value k) % modulus := by
  rw [← Finset.sum_nat_mod]
  have digit_mem : ∀ k ∈ (Finset.range n).filter (fun k => 1 ≤ digit k ∧ digit k ≤ nb), digit k ∈ Finset.Icc 1 nb :=
    fun k hk => Finset.mem_Icc.mpr (Finset.mem_filter.mp hk).2
  rw [← Finset.sum_fiberwise_of_maps_to digit_mem]
  congr 1
  refine Finset.sum_congr rfl fun d hd => Finset.sum_congr ?_ fun _ _ => rfl
  obtain ⟨hpos, hle⟩ := Finset.mem_Icc.mp hd
  rw [Finset.filter_filter]
  refine Finset.filter_congr fun k _ => ⟨?_, And.right⟩
  rintro rfl
  exact ⟨⟨hpos, hle⟩, rfl⟩

/-- Settles O52: a slot of a zero ACC ends as its gathered sum; with NUM_BUCKETS >= 2^W - 1 every digit but 0 is a
bucket. -/
theorem bucketConservation : Obligations.BucketConservation := by
  unfold Obligations.BucketConservation
  intro f s t hlegal hzero h c hc
  obtain ⟨t', hexec, hslots, -⟩ := bucketSums f s hlegal
  obtain rfl : t' = t := Host.Outcome.next.inj (hexec.symm.trans h)
  have gathered : (∑ d ∈ Finset.Icc 1 f.numBuckets.toNat,
        (readWord t'.mem (bucketSlot f.acc.toNat f.coordSize.toNat d c)).toNat) % 2 ^ 64
      = (∑ k ∈ (Finset.range f.numPoints.toNat).filter
            (fun k => 1 ≤ digitOf f s.mem k ∧ digitOf f s.mem k ≤ f.numBuckets.toNat),
          (readWord s.mem (pointSlot f.pts.toNat f.coordSize.toNat k c)).toNat) % 2 ^ 64 := by
    rw [← sum_by_digit_mod]
    refine congrArg (· % 2 ^ 64) (Finset.sum_congr rfl fun d hd => ?_)
    obtain ⟨hpos, hle⟩ := Finset.mem_Icc.mp hd
    have hempty : readWord s.mem (bucketSlot f.acc.toNat f.coordSize.toNat d c) = 0 := by
      have row := elem_le (Nat.sub_one_lt_of_le hpos hle) f.coordSize.toNat
      rw [bucketSlot, Nat.add_assoc]
      exact hzero _ (by omega)
    rw [hslots d c hpos hle hc, hempty, show (0 : Word).toNat = 0 from rfl, Nat.zero_add]
  refine ⟨gathered, fun hbuckets => gathered.trans ?_⟩
  obtain ⟨⟨-, hwindow⟩, -, -⟩ := hlegal
  have digit_le (k : Nat) : digitOf f s.mem k ≤ f.numBuckets.toNat := by
    have hlt : digitOf f s.mem k < 2 ^ windowBits f.hdr := by
      rw [digitOf_eq_mod s.mem k (BitVec.le_def.mp hwindow)]
      exact Nat.mod_lt _ (Nat.two_pow_pos _)
    omega
  simp only [digit_le, and_true, Nat.one_le_iff_ne_zero]

end Sys2Proof.Machine
end

section
/-! What a command reads (20_memory.md R46): two memories that agree on its input and in-out regions are equal in every
word its rule reads, so the rule writes the same words to both. -/

namespace Sys2Proof.Machine

/-- The two memories have the same bytes in the region. -/
abbrev AgreeOn (x : Region) (m m' : Memory) : Prop := ∀ a, InRegion a x → readByte m a = readByte m' a

/-! ### Reading what agrees -/

namespace AgreeOn

variable {m m' : Memory} {x : Region} {p n L : Nat}

theorem readWord (h : AgreeOn x m m') (hp : x.base ≤ p ∧ p < x.base + x.len) :
    Machine.readWord m p = Machine.readWord m' p :=
  readWord_congr fun k hk => h _ ⟨by omega, by omega⟩

theorem readWords (h : AgreeOn ⟨p, n⟩ m m') : Machine.readWords m p n = Machine.readWords m' p n :=
  readWords_congr fun k hk => h.readWord ⟨Nat.le_add_right p k, Nat.add_lt_add_left hk p⟩

theorem readElem (h : AgreeOn ⟨p, n * L⟩ m m') {i : Nat} (hi : i < n) :
    Machine.readElem m p L i = Machine.readElem m' p L i := by
  have inside := elem_le hi L
  refine readWords_congr fun k hk => h.readWord (x := ⟨p, n * L⟩) ⟨?_, ?_⟩
  · show p ≤ p + i * L + k
    omega
  · show p + i * L + k < p + n * L
    omega

/-! ### Writing the same words -/

theorem writeWord (h : AgreeOn x m m') (p : Nat) (v : Word) :
    AgreeOn x (Machine.writeWord m p v) (Machine.writeWord m' p v) := by
  intro a ha
  rw [readByte_writeWord, readByte_writeWord, h a ha]

theorem writeWords (h : AgreeOn x m m') (p : Nat) (vs : List Word) :
    AgreeOn x (Machine.writeWords m p vs) (Machine.writeWords m' p vs) := by
  induction vs generalizing m m' p with
  | nil => exact h
  | cons v rest ih => exact ih (h.writeWord p v) (p + 1)

end AgreeOn

/-- Where words are written the memories agree after it, whatever they held before. -/
theorem agreeOn_writeWords (m m' : Memory) (p : Nat) {vs : List Word} {n : Nat} (hlen : vs.length = n) :
    AgreeOn ⟨p, n⟩ (writeWords m p vs) (writeWords m' p vs) := by
  subst hlen
  induction vs generalizing m m' p with
  | nil =>
    rintro a ⟨hbase, hend⟩
    exact absurd hbase (Nat.not_le.mpr hend)
  | cons v rest ih =>
    intro a ha
    have ha : 8 * p ≤ a ∧ a < 8 * (p + (rest.length + 1)) := ha
    by_cases hfirst : a / 8 = p
    · have first : AgreeOn ⟨p, 1⟩ (writeWord m p v) (writeWord m' p v) := by
        intro b hb
        have hb : 8 * p ≤ b ∧ b < 8 * (p + 1) := hb
        rw [readByte_writeWord, readByte_writeWord, if_pos (by omega), if_pos (by omega)]
      exact first.writeWords (p + 1) rest a ⟨ha.1, show a < 8 * (p + 1) by omega⟩
    · exact ih _ _ (p + 1) a ⟨show 8 * (p + 1) ≤ a by omega, show a < 8 * (p + 1 + rest.length) by omega⟩

/-! ### The rules -/

/-- A point's slots are added alike to a bucket that lies in a region of agreement. -/
theorem AgreeOn.addPointSlots {f : FormatBA} {pre pre' m m' : Memory} {x : Region} {k d n : Nat}
    (h : AgreeOn x m m') (hbase : x.base ≤ bucketSlot f.acc.toNat f.coordSize.toNat d 0)
    (hend : bucketSlot f.acc.toNat f.coordSize.toNat d 0 + n ≤ x.base + x.len)
    (hslot : ∀ c < n, Machine.readWord pre (pointSlot f.pts.toNat f.coordSize.toNat k c)
      = Machine.readWord pre' (pointSlot f.pts.toNat f.coordSize.toNat k c)) :
    AgreeOn x (Machine.addPointSlots f pre k d n m) (Machine.addPointSlots f pre' k d n m') := by
  induction n with
  | zero => exact h
  | succ c ih =>
    have before := ih (by omega) fun c hc => hslot c (by omega)
    have bucket := before.readWord (p := bucketSlot f.acc.toNat f.coordSize.toNat d c)
      (by rw [bucketSlot_eq _ _ d c]; omega)
    simp only [Machine.addPointSlots, bucket, hslot c (Nat.lt_succ_self c)]
    exact before.writeWord _ _

/-- Points are added alike to two memories that agree on ACC, if their digits and slots are the same. -/
theorem AgreeOn.addPoints {f : FormatBA} {pre pre' m m' : Memory} {n : Nat}
    (h : AgreeOn ⟨f.acc.toNat, f.numBuckets.toNat * f.coordSize.toNat⟩ m m')
    (hdigit : ∀ k < n, digitOf f pre k = digitOf f pre' k)
    (hslot : ∀ k < n, ∀ c < f.coordSize.toNat, Machine.readWord pre (pointSlot f.pts.toNat f.coordSize.toNat k c)
      = Machine.readWord pre' (pointSlot f.pts.toNat f.coordSize.toNat k c)) :
    AgreeOn ⟨f.acc.toNat, f.numBuckets.toNat * f.coordSize.toNat⟩ (Machine.addPoints f pre n m)
      (Machine.addPoints f pre' n m') := by
  induction n with
  | zero => exact h
  | succ k ih =>
    have before := ih (fun k hk => hdigit k (by omega)) fun k hk => hslot k (by omega)
    simp only [Machine.addPoints, addPoint, hdigit k (Nat.lt_succ_self k)]
    split_ifs with hbucket
    · obtain ⟨hbase, hend⟩ := bucketSlot_le (base := f.acc.toNat) (cs := f.coordSize.toNat) hbucket.1 hbucket.2
      exact before.addPointSlots hbase hend (hslot k (Nat.lt_succ_self k))
    · exact before

/-- The regions a command reads (30_encoding.md R72). -/
def RegionTable.read (t : RegionTable) : List Region := t.inout ++ t.inArray ++ t.inFixed

/-- The regions a command writes (30_encoding.md R72). -/
def RegionTable.written (t : RegionTable) : List Region := t.out ++ t.inout

/-- The words of BMONTMUL depend on its operands alone. -/
theorem batchResult_congr {f : FormatBM} {m m' : Memory}
    (h : ∀ x ∈ (regionsOf (.bmontmul f)).read, AgreeOn x m m') : batchResult f m = batchResult f m' := by
  have ha : AgreeOn ⟨f.a.toNat, f.count.toNat * limbCount f.hdr⟩ m m' := h _ (by simp [RegionTable.read, regionsOf])
  have hb : AgreeOn ⟨f.b.toNat, f.count.toNat * limbCount f.hdr⟩ m m' := h _ (by simp [RegionTable.read, regionsOf])
  have hm : AgreeOn ⟨f.modulus.toNat, limbCount f.hdr⟩ m m' := h _ (by simp [RegionTable.read, regionsOf])
  have elem : ∀ i ∈ List.range f.count.toNat, batchElem f m i = batchElem f m' i := by
    intro i hi
    have hi := List.mem_range.mp hi
    simp only [batchElem, ha.readElem hi, hb.readElem hi, hm.readWords]
  rw [batchResult, batchResult, List.flatMap_congr elem]

/-- The butterflies of NTTBFLY depend on its operands alone. -/
theorem bflyElem_congr {f : FormatNB} {m m' : Memory}
    (h : ∀ x ∈ (regionsOf (.nttbfly f)).read, AgreeOn x m m') {i : Nat} (hi : i < f.n.toNat) :
    bflyElem f m i = bflyElem f m' i := by
  have he : AgreeOn ⟨f.inEven.toNat, f.n.toNat * limbCount f.hdr⟩ m m' := h _ (by simp [RegionTable.read, regionsOf])
  have ho : AgreeOn ⟨f.inOdd.toNat, f.n.toNat * limbCount f.hdr⟩ m m' := h _ (by simp [RegionTable.read, regionsOf])
  have htw : AgreeOn ⟨f.tw.toNat, f.n.toNat * limbCount f.hdr⟩ m m' := h _ (by simp [RegionTable.read, regionsOf])
  have hm : AgreeOn ⟨f.modulus.toNat, limbCount f.hdr⟩ m m' := h _ (by simp [RegionTable.read, regionsOf])
  simp only [bflyElem, he.readElem hi, ho.readElem hi, htw.readElem hi, hm.readWords]

theorem bflyEvens_congr {f : FormatNB} {m m' : Memory}
    (h : ∀ x ∈ (regionsOf (.nttbfly f)).read, AgreeOn x m m') : bflyEvens f m = bflyEvens f m' :=
  List.flatMap_congr fun _ hi => congrArg Prod.fst (bflyElem_congr h (List.mem_range.mp hi))

theorem bflyOdds_congr {f : FormatNB} {m m' : Memory}
    (h : ∀ x ∈ (regionsOf (.nttbfly f)).read, AgreeOn x m m') : bflyOdds f m = bflyOdds f m' :=
  List.flatMap_congr fun _ hi => congrArg Prod.snd (bflyElem_congr h (List.mem_range.mp hi))

/-- What a rule computes depends on the regions it reads alone. -/
theorem ruleOf_agreeOn {i : Instr} {s s' : State}
    (h : ∀ x ∈ (regionsOf i).read, AgreeOn x s.mem s'.mem) :
    (ruleOf i s).rsp = (ruleOf i s').rsp
      ∧ ∀ x ∈ (regionsOf i).written, AgreeOn x (ruleOf i s).mem (ruleOf i s').mem := by
  cases i with
  | ladd f =>
    have ha : AgreeOn ⟨f.a.toNat, limbCount f.hdr⟩ s.mem s'.mem := h _ (by simp [RegionTable.read, regionsOf])
    have hb : AgreeOn ⟨f.b.toNat, limbCount f.hdr⟩ s.mem s'.mem := h _ (by simp [RegionTable.read, regionsOf])
    simp only [ruleOf, ruleLadd, complete_rsp, complete_mem, ha.readWords, hb.readWords]
    exact ⟨trivial, List.forall_mem_singleton.mpr (agreeOn_writeWords _ _ _ (by simp))⟩
  | lsub f =>
    have ha : AgreeOn ⟨f.a.toNat, limbCount f.hdr⟩ s.mem s'.mem := h _ (by simp [RegionTable.read, regionsOf])
    have hb : AgreeOn ⟨f.b.toNat, limbCount f.hdr⟩ s.mem s'.mem := h _ (by simp [RegionTable.read, regionsOf])
    simp only [ruleOf, ruleLsub, complete_rsp, complete_mem, ha.readWords, hb.readWords]
    exact ⟨trivial, List.forall_mem_singleton.mpr (agreeOn_writeWords _ _ _ (by simp))⟩
  | lcmp f =>
    have ha : AgreeOn ⟨f.a.toNat, limbCount f.hdr⟩ s.mem s'.mem := h _ (by simp [RegionTable.read, regionsOf])
    have hb : AgreeOn ⟨f.b.toNat, limbCount f.hdr⟩ s.mem s'.mem := h _ (by simp [RegionTable.read, regionsOf])
    simp only [ruleOf, ruleLcmp, complete_rsp, ha.readWords, hb.readWords]
    exact ⟨trivial, fun x hx => absurd hx List.not_mem_nil⟩
  | montmul f =>
    have ha : AgreeOn ⟨f.a.toNat, limbCount f.hdr⟩ s.mem s'.mem := h _ (by simp [RegionTable.read, regionsOf])
    have hb : AgreeOn ⟨f.b.toNat, limbCount f.hdr⟩ s.mem s'.mem := h _ (by simp [RegionTable.read, regionsOf])
    have hm : AgreeOn ⟨f.modulus.toNat, limbCount f.hdr⟩ s.mem s'.mem := h _ (by simp [RegionTable.read, regionsOf])
    simp only [ruleOf, ruleMontmul, complete_rsp, complete_mem, ha.readWords, hb.readWords, hm.readWords]
    refine ⟨trivial, List.forall_mem_singleton.mpr (agreeOn_writeWords _ _ _ ?_)⟩
    rw [montMul_length] <;> simp
  | bmontmul f =>
    refine ⟨rfl, List.forall_mem_singleton.mpr ?_⟩
    simp only [ruleOf, ruleBmontmul, complete_mem, batchResult_congr h]
    exact agreeOn_writeWords _ _ _ (batchResult_length f s'.mem)
  | nttbfly f =>
    refine ⟨rfl, List.forall_mem_cons.mpr ⟨?_, List.forall_mem_singleton.mpr ?_⟩⟩
    · simp only [ruleOf, ruleNttbfly, complete_mem, bflyEvens_congr h, bflyOdds_congr h]
      exact (agreeOn_writeWords _ _ _ (bflyEvens_length f s'.mem)).writeWords _ _
    · simp only [ruleOf, ruleNttbfly, complete_mem, bflyOdds_congr h]
      exact agreeOn_writeWords _ _ _ (bflyOdds_length f s'.mem)
  | bktacc f =>
    have hacc : AgreeOn ⟨f.acc.toNat, f.numBuckets.toNat * f.coordSize.toNat⟩ s.mem s'.mem :=
      h _ (by simp [RegionTable.read, regionsOf])
    have hidx : AgreeOn ⟨f.idx.toNat, f.numPoints.toNat⟩ s.mem s'.mem := h _ (by simp [RegionTable.read, regionsOf])
    have hpts : AgreeOn ⟨f.pts.toNat, f.numPoints.toNat * f.coordSize.toNat⟩ s.mem s'.mem :=
      h _ (by simp [RegionTable.read, regionsOf])
    refine ⟨rfl, List.forall_mem_singleton.mpr (hacc.addPoints (fun k hk => ?_) fun k hk c hc => ?_)⟩
    · have index := hidx.readWord (p := f.idx.toNat + k) ⟨Nat.le_add_right _ k, Nat.add_lt_add_left hk _⟩
      rw [digitOf, digitOf, index]
    · have row := elem_le hk f.coordSize.toNat
      exact hpts.readWord ⟨show f.pts.toNat ≤ f.pts.toNat + k * f.coordSize.toNat + c by omega,
        show f.pts.toNat + k * f.coordSize.toNat + c < f.pts.toNat + f.numPoints.toNat * f.coordSize.toNat by omega⟩

/-- Settles O26: both states pass the checks, which read no MEM, and the rule reads the agreeing regions alone. -/
theorem commandReadsOnlyItsRegions : Obligations.CommandReadsOnlyItsRegions := by
  unfold Obligations.CommandReadsOnlyItsRegions
  intro i s s' hcfg hlegal hagree
  obtain ⟨hrsp, hmem⟩ := ruleOf_agreeOn hagree
  exact ⟨_, _, exec_of_legal hlegal, exec_of_legal (hcfg ▸ hlegal), hrsp, hmem⟩

end Sys2Proof.Machine
end
